-- ==== Sys2Proof/Word.lean ====
section
/-! DEFINITION. The plain data every other file uses: words, indices, characters, notch masks, the three
rotors, the eight tables, and a triple holding one thing per rotor. -/

namespace Sys2Proof

/-- A command word or a response word: 16 bits, bit 0 the least significant (00_scope R8, R12; 30_encoding R70, R84). -/
abbrev Word := BitVec 16

/-- An index, a value 0..25 standing for a letter or a contact (00_scope R11). The hardware spells it in 5 bits and
the codes 26..31 never occur in state (10_state R35; log 8). -/
abbrev Index := Fin 26

/-- A character on the symbol path: 8 bits (00_scope R8, R13). -/
abbrev Character := BitVec 8

/-- A notch set: bit `i` is 1 when index `i` is in the set (10_state R23). -/
abbrev NotchMask := BitVec 26

/-- The three rotors `L`, `M`, `R` (00_scope R14). -/
inductive Rotor where
  | left
  | middle
  | right
  deriving DecidableEq, Repr

/-- The eight table memories, each an address space of its own (20_memory R50). -/
inductive TableId where
  | wiring (k : Rotor)   -- `W[k]`
  | inverse (k : Rotor)  -- `INV[k]`
  | reflector            -- `REF`
  | plugboard            -- `PB`
  deriving DecidableEq, Repr

/-- One thing for each rotor: `POS`, `RING`, `NOTCH`, `W` and `INV` come in threes (10_state R20, R24). -/
structure PerRotor (α : Type) where
  left : α
  middle : α
  right : α
  deriving DecidableEq, Repr

/-- The part of rotor `k`. -/
def PerRotor.get {α : Type} (p : PerRotor α) : Rotor → α
  | .left => p.left
  | .middle => p.middle
  | .right => p.right

/-- The same triple with rotor `k`'s part replaced. -/
def PerRotor.set {α : Type} (p : PerRotor α) (k : Rotor) (x : α) : PerRotor α :=
  match k with
  | .left => { p with left := x }
  | .middle => { p with middle := x }
  | .right => { p with right := x }

end Sys2Proof
end

