-- ==== Sys2Proof/Syntax.lean ====
section
/-! DEFINITION. The eleven commands as syntax: one constructor per row of the opcode table (30_encoding R73), its
arguments the fields the row's format gives it (30_encoding R71, R72). -/

namespace Sys2Proof

/-- A command. `r` is the 2-bit rotor select (0 left, 1 middle, 2 right, 3 illegal), the 5-bit fields are index
operands of which 26..31 are not indices (30_encoding R75), `c` is any character. -/
inductive Instr where
  /-- `WRW r, i, v`: write one wiring entry (44_configuration R181). -/
  | wrw (r : BitVec 2) (i v : BitVec 5)
  /-- `WRF i, v`: write one reflector entry (44_configuration R182). -/
  | wrf (i v : BitVec 5)
  /-- `PLUG a, b`: connect one plug pair (44_configuration R183). -/
  | plug (a b : BitVec 5)
  /-- `NOTCH r, n`: add one notch (44_configuration R184). -/
  | notch (r : BitVec 2) (n : BitVec 5)
  /-- `RING r, g`: set a ring setting (44_configuration R185). -/
  | ring (r : BitVec 2) (g : BitVec 5)
  /-- `POS r, p`: set an initial position (44_configuration R186). -/
  | pos (r : BitVec 2) (p : BitVec 5)
  /-- `BUILD`: end construction (44_configuration R187). -/
  | build
  /-- `ENC c`: encrypt one character, passing a non-letter through (43_pipeline R163). -/
  | enc (c : Character)
  /-- `ENCT c`: encrypt one character of a text, dropping a non-letter (43_pipeline R164). -/
  | enct (c : Character)
  /-- `RDPOS r`: read a rotor position (44_configuration R188). -/
  | rdpos (r : BitVec 2)
  /-- `RDST`: read `STATUS` (44_configuration R189). -/
  | rdst
  deriving DecidableEq, Repr

end Sys2Proof
end

