-- ==== Sys2Proof/WellFormed.lean ====
section
/-! DEFINITION. Which commands some word spells: those whose rotor select, if they have one, is not 3. -/

namespace Sys2Proof

/-- Rotor select 3 names no rotor (30_encoding R71, R82). -/
def rotorSelectLegal (r : BitVec 2) : Bool := r != 3#2

/-- A command that a word can spell (30_encoding R73, R76 case 2). Index fields 26..31 are well formed: they decode,
and the command then refuses or reduces them (30_encoding R75). -/
def Instr.wellFormed : Instr → Bool
  | .wrw r _ _ => rotorSelectLegal r
  | .wrf _ _ => true
  | .plug _ _ => true
  | .notch r _ => rotorSelectLegal r
  | .ring r _ => rotorSelectLegal r
  | .pos r _ => rotorSelectLegal r
  | .build => true
  | .enc _ => true
  | .enct _ => true
  | .rdpos r => rotorSelectLegal r
  | .rdst => true

end Sys2Proof
end

