-- ==== Sys2Proof/Decode.lean ====
section
/-! DEFINITION. Decoding of the 65 536 command words (30_encoding R79), the encoder that spells a command
(30_encoding R72), and the opcode map of 30_encoding R73 as a list of rows. -/

namespace Sys2Proof

/-- Why a word spells no command: the seven cases of 30_encoding R76, in its order. -/
inductive Illegal where
  /-- Case 1: `op` is 0x0, 0xC, 0xD, 0xE or 0xF. -/
  | reservedOpcode
  /-- Case 2: a command with a rotor operand and `r = 3`. -/
  | rotorSelect
  /-- Case 3: format T with a 1 in bits 11:10. -/
  | bits11to10
  /-- Case 4: format R with a 1 in bits 9:5. -/
  | bits9to5
  /-- Case 5: format Z with a 1 in bits 11:0. -/
  | bits11to0
  /-- Case 6: format C with a 1 in bits 11:8. -/
  | bits11to8
  /-- Case 7: format Q with a 1 in bits 9:0. -/
  | bits9to0
  deriving DecidableEq, Repr

/-- `op`, bits 15:12 (30_encoding R71). -/
def opField (w : Word) : BitVec 4 := w.extractLsb' 12 4

/-- `r`, bits 11:10. -/
def rField (w : Word) : BitVec 2 := w.extractLsb' 10 2

/-- `i`, bits 9:5. -/
def iField (w : Word) : BitVec 5 := w.extractLsb' 5 5

/-- `v`, bits 4:0. -/
def vField (w : Word) : BitVec 5 := w.extractLsb' 0 5

/-- `c`, bits 7:0. -/
def cField (w : Word) : Character := w.extractLsb' 0 8

/-- The result of a format's check: the command when the check holds, else the named reason. -/
def legalIf (ok : Bool) (why : Illegal) (rest : Except Illegal Instr) : Except Illegal Instr :=
  if ok then rest else .error why

/-- Format W: `op r i v`, `r ≠ 3`. -/
def decodeW (w : Word) (f : BitVec 2 → BitVec 5 → BitVec 5 → Instr) : Except Illegal Instr :=
  legalIf (rotorSelectLegal (rField w)) .rotorSelect (.ok (f (rField w) (iField w) (vField w)))

/-- Format T: `op 00 i v`. -/
def decodeT (w : Word) (f : BitVec 5 → BitVec 5 → Instr) : Except Illegal Instr :=
  legalIf (rField w == 0#2) .bits11to10 (.ok (f (iField w) (vField w)))

/-- Format R: `op r 00000 v`, `r ≠ 3`. -/
def decodeR (w : Word) (f : BitVec 2 → BitVec 5 → Instr) : Except Illegal Instr :=
  legalIf (iField w == 0#5) .bits9to5
    (legalIf (rotorSelectLegal (rField w)) .rotorSelect (.ok (f (rField w) (vField w))))

/-- Format Q: `op r 00000 00000`, `r ≠ 3`. -/
def decodeQ (w : Word) (f : BitVec 2 → Instr) : Except Illegal Instr :=
  legalIf (w.extractLsb' 0 10 == 0#10) .bits9to0
    (legalIf (rotorSelectLegal (rField w)) .rotorSelect (.ok (f (rField w))))

/-- Format Z: `op` and twelve zeros. -/
def decodeZ (w : Word) (i : Instr) : Except Illegal Instr :=
  legalIf (w.extractLsb' 0 12 == 0#12) .bits11to0 (.ok i)

/-- Format C: `op 0000 c`. -/
def decodeC (w : Word) (f : Character → Instr) : Except Illegal Instr :=
  legalIf (w.extractLsb' 8 4 == 0#4) .bits11to8 (.ok (f (cField w)))

/-- Decoding, total on all words (30_encoding R79): look up `op`, then check the format's zero bits and `r ≠ 3`. It
reads no state. -/
def decode (w : Word) : Except Illegal Instr :=
  match opField w with
  | 0x1#4 => decodeW w .wrw
  | 0x2#4 => decodeT w .wrf
  | 0x3#4 => decodeT w .plug
  | 0x4#4 => decodeR w .notch
  | 0x5#4 => decodeR w .ring
  | 0x6#4 => decodeR w .pos
  | 0x7#4 => decodeZ w .build
  | 0x8#4 => decodeC w .enc
  | 0x9#4 => decodeC w .enct
  | 0xA#4 => decodeQ w .rdpos
  | 0xB#4 => decodeZ w .rdst
  | _ => .error .reservedOpcode

/-- The instruction this decoder reads from a table word: the low `nbits` bits of `w`, the bits above them zero. No
command is longer than 16 bits (30_encoding R78), so a longer word is no command. -/
def decodeTableWord (nbits w : Nat) : Option Instr :=
  if nbits ≤ 16 then
    match decode (BitVec.ofNat 16 (w % 2 ^ nbits)) with
    | .ok i => some i
    | .error _ => none
  else none

/-- Format W as a word (30_encoding R72). -/
def wordW (op : BitVec 4) (r : BitVec 2) (i v : BitVec 5) : Word := op ++ r ++ i ++ v

/-- Format C as a word (30_encoding R72). -/
def wordC (op : BitVec 4) (c : Character) : Word := op ++ 0#4 ++ c

/-- The word that spells a command, every bit its format does not use 0 (30_encoding R72, R74). The formats T, R, Q
and Z are format W with zeros in the fields they lack. -/
def encode : Instr → Word
  | .wrw r i v => wordW 0x1#4 r i v
  | .wrf i v => wordW 0x2#4 0#2 i v
  | .plug a b => wordW 0x3#4 0#2 a b
  | .notch r n => wordW 0x4#4 r 0#5 n
  | .ring r g => wordW 0x5#4 r 0#5 g
  | .pos r p => wordW 0x6#4 r 0#5 p
  | .build => wordW 0x7#4 0#2 0#5 0#5
  | .enc c => wordC 0x8#4 c
  | .enct c => wordC 0x9#4 c
  | .rdpos r => wordW 0xA#4 r 0#5 0#5
  | .rdst => wordW 0xB#4 0#2 0#5 0#5

/-- One row of the opcode map: a word is the row's when its bits under `mask` are `pattern`, and, where the format has
a rotor field, `r ≠ 3` (30_encoding R73). -/
structure OpcodeRow where
  mnemonic : String
  pattern : Word
  mask : Word
  hasRotor : Bool
  deriving DecidableEq, Repr

/-- The row of a command, as 30_encoding R73 prints it. -/
def opcodeRow : Instr → OpcodeRow
  | .wrw _ _ _ => ⟨"WRW", 0x1000#16, 0xF000#16, true⟩
  | .wrf _ _ => ⟨"WRF", 0x2000#16, 0xFC00#16, false⟩
  | .plug _ _ => ⟨"PLUG", 0x3000#16, 0xFC00#16, false⟩
  | .notch _ _ => ⟨"NOTCH", 0x4000#16, 0xF3E0#16, true⟩
  | .ring _ _ => ⟨"RING", 0x5000#16, 0xF3E0#16, true⟩
  | .pos _ _ => ⟨"POS", 0x6000#16, 0xF3E0#16, true⟩
  | .build => ⟨"BUILD", 0x7000#16, 0xFFFF#16, false⟩
  | .enc _ => ⟨"ENC", 0x8000#16, 0xFF00#16, false⟩
  | .enct _ => ⟨"ENCT", 0x9000#16, 0xFF00#16, false⟩
  | .rdpos _ => ⟨"RDPOS", 0xA000#16, 0xF3FF#16, true⟩
  | .rdst => ⟨"RDST", 0xB000#16, 0xFFFF#16, false⟩

/-- The eleven rows of the opcode map, in its order. -/
def opcodeTable : List OpcodeRow :=
  [opcodeRow (.wrw 0 0 0), opcodeRow (.wrf 0 0), opcodeRow (.plug 0 0), opcodeRow (.notch 0 0),
   opcodeRow (.ring 0 0), opcodeRow (.pos 0 0), opcodeRow .build, opcodeRow (.enc 0), opcodeRow (.enct 0),
   opcodeRow (.rdpos 0), opcodeRow .rdst]

/-- Whether a word is a row's (30_encoding R73). -/
def OpcodeRow.accepts (row : OpcodeRow) (w : Word) : Bool :=
  (w &&& row.mask == row.pattern) && (!row.hasRotor || rField w != 3#2)

end Sys2Proof
end

