-- ==== Sys2Proof/Config.lean ====
section
/-! DEFINITION. The spec's open parameters UNWRITTEN and INV_OF_NONPERM (00_scope R10) as free values: constants with
no body, so that a proof holds whatever they are. The third open parameter, LAT, is a time, and the model has none
(70_reset R272; log 9). -/

namespace Sys2Proof

/-- `UNWRITTEN`: what an entry of `W`, `INV` or `REF` that nothing has written since the last reset reads as. It is
some index, fixed for the session (10_state R40, R41; 93_implementation_defined U1, U11). DESIGN CHOICE, log 3 and
log 5. -/
opaque Config.unwritten (session : Nat) (t : TableId) (a : Index) : Index

/-- `INV_OF_NONPERM`: the entry at `a` that `BUILD` gives `INV[k]` when the wiring read, listed in `wiring` from entry
0 on, is not a permutation. It is some index (44_configuration R187; 93_implementation_defined U2). DESIGN CHOICE,
log 4. -/
opaque Config.invOfNonPerm (session : Nat) (k : Rotor) (wiring : List Index) (a : Index) : Index

end Sys2Proof
end

