-- ==== Sys2Proof/Machine/State.lean ====
section
/-! DEFINITION. The state of one RSSM instance (10_state R20), the host's moves and the block's responses beside it,
the reasons a step can stop, and the state after reset (10_state R39, R40). -/

namespace Sys2Proof.Machine

/-- The two phases of a session (60_exceptions R245). -/
inductive Phase where
  | cfg  -- 0: machine under construction
  | run  -- 1: machine constructed
  deriving DecidableEq, Repr

/-- The errors of 60_exceptions R231. -/
inductive ErrorKind where
  /-- Code 1: the word spells no command (R232). -/
  | illegalCommand
  /-- Code 2: a legal command in a phase that does not allow it (R233). -/
  | wrongPhase
  /-- Code 3: a field that stands for a letter is 26..31 (R234). -/
  | invalidSymbol
  /-- Code 4: named for the source's `MalformedConfiguration` and never raised (R235). -/
  | malformedConfiguration
  deriving DecidableEq, Repr

/-- The one response a command produces (30_encoding R84). -/
inductive Response where
  | ack
  | sym (c : Character)
  | val (x : BitVec 5)
  | err (e : ErrorKind)
  deriving DecidableEq, Repr

/-- What the host can do to the block: present a command word, or assert reset between two commands
(70_reset R260, R275). -/
inductive HostEvent where
  | command (w : Word)
  | reset
  deriving DecidableEq, Repr

/-- A table memory as the list of its written entries (address, datum), addresses strictly rising. What an unlisted
entry reads as is said once, in `Memory.unlisted`. -/
abbrev Table := List (Index × Index)

/-- The eight table memories (20_memory R50). -/
structure Memory where
  /-- `W[k]`. -/
  wiring : PerRotor Table
  /-- `INV[k]`. -/
  inverse : PerRotor Table
  /-- `REF`. -/
  reflector : Table
  /-- `PB`. -/
  plugboard : Table
  deriving DecidableEq, Repr

/-- The state: the complete list of 10_state R20, then the model's own three fields. -/
structure State where
  /-- `POS[k]`. -/
  pos : PerRotor Index
  /-- `RING[k]`. -/
  ring : PerRotor Index
  /-- `NOTCH[k]`. -/
  notch : PerRotor NotchMask
  /-- `W`, `INV`, `REF`, `PB`. -/
  mem : Memory
  /-- `PHASE`. -/
  phase : Phase
  /-- `FAULT`. -/
  fault : Bool
  /-- `CAUSE`. -/
  cause : BitVec 3
  /-- The model's own: which session this is, so that each session's unwritten entries are free anew (log 3). -/
  session : Nat
  /-- The model's own: the host's moves to come, oldest first (10_state R37; log 1). -/
  inbox : List HostEvent
  /-- The model's own: the responses given so far, oldest first (10_state R37; log 2). -/
  responses : List Response
  deriving DecidableEq, Repr

/-- Reasons a step stops with a fault: there is none. Every command in every state produces its response
(60_exceptions R230, R250), so no definition of the model raises a fault; that is safe and exact. -/
inductive Fault where
  deriving DecidableEq, Repr

/-- Reasons a step gives no meaning to a command. -/
inductive Refusal where
  /-- Raised only by an arm of `exec` whose instruction has no meaning yet; no arm does. Safe: the model stops where
  the hardware goes on. -/
  | notModelled (mnemonic : String)
  deriving DecidableEq, Repr

/-- What one command, or one step, gives. -/
abbrev Result := Host.Outcome State Fault Refusal

/-- The state right after reset (10_state R39, R40): CFG phase, no fault, positions and rings 0, notch sets empty,
every table with nothing written, so that the plugboard reads as the identity and the other tables as free values.
The last three fields are the model's own (log 1, log 2, log 3). -/
def State.reset : State where
  pos := ⟨0, 0, 0⟩
  ring := ⟨0, 0, 0⟩
  notch := ⟨0#26, 0#26, 0#26⟩
  mem := { wiring := ⟨[], [], []⟩, inverse := ⟨[], [], []⟩, reflector := [], plugboard := [] }
  phase := .cfg
  fault := false
  cause := 0#3
  session := 0
  inbox := []
  responses := []

end Sys2Proof.Machine
end

