-- ==== Sys2Proof/Machine/Flags.lean ====
section
/-! DEFINITION. RSSM has no condition codes (10_state R31). This file holds what stands in their place: the error
codes (60_exceptions R231), the packing of `STATUS` (10_state R32) and of the response words (30_encoding R84). -/

namespace Sys2Proof.Machine

/-- The code of an error (60_exceptions R231), as `CAUSE` holds it. -/
def ErrorKind.code : ErrorKind → BitVec 3
  | .illegalCommand => 1#3
  | .wrongPhase => 2#3
  | .invalidSymbol => 3#3
  | .malformedConfiguration => 4#3

/-- `PHASE` as the bit `STATUS` shows (10_state R32). -/
def Phase.bit : Phase → BitVec 1
  | .cfg => 0#1
  | .run => 1#1

/-- `STATUS = CAUSE ++ FAULT ++ PHASE` (10_state R32; 30_encoding R85). -/
def State.status (s : State) : BitVec 5 := s.cause ++ BitVec.ofBool s.fault ++ s.phase.bit

/-- The 16-bit word of a response (30_encoding R84). -/
def Response.toWord : Response → Word
  | .ack => 0x0000#16
  | .sym c => 0x1#4 ++ 0#4 ++ c
  | .val x => 0x2#4 ++ 0#7 ++ x
  | .err e => 0xF#4 ++ 0#9 ++ e.code

end Sys2Proof.Machine
end

