-- ==== Sys2Proof/Machine/Ops.lean ====
section
/-! DEFINITION. The named operations over tables and registers, the response and the error every command shares, and
the host's moves. -/

namespace Sys2Proof.Machine

/-! ## One table -/

/-- The datum listed for an address, if the entry is written. -/
def Table.entry : Table → Index → Option Index
  | [], _ => none
  | (b, u) :: t, a => if a = b then some u else Table.entry t a

/-- The table with `(a, v)` listed in its place, in rising order. -/
def Table.put : Table → Index → Index → Table
  | [], a, v => [(a, v)]
  | (b, u) :: t, a, v =>
    if a < b then (a, v) :: (b, u) :: t
    else if a = b then (a, v) :: t
    else (b, u) :: Table.put t a v

/-- The table with address `a` no longer listed. -/
def Table.unlist : Table → Index → Table
  | [], _ => []
  | (b, u) :: t, a => if a = b then Table.unlist t a else (b, u) :: Table.unlist t a

/-- The table that lists all 26 entries, entry `a` holding `f a`. -/
def Table.full (f : Index → Index) : Table := (List.finRange 26).map fun a => (a, f a)

/-- Addresses strictly rising, so that equal tables are equal lists. -/
abbrev Table.Rising (t : Table) : Prop := t.Pairwise fun x y => x.1 < y.1

/-! ## The eight tables -/

/-- One of the eight tables (20_memory R50). -/
def Memory.table (m : Memory) : TableId → Table
  | .wiring k => m.wiring.get k
  | .inverse k => m.inverse.get k
  | .reflector => m.reflector
  | .plugboard => m.plugboard

/-- The memory with one of the eight tables replaced. -/
def Memory.setTable (m : Memory) (t : TableId) (x : Table) : Memory :=
  match t with
  | .wiring k => { m with wiring := m.wiring.set k x }
  | .inverse k => { m with inverse := m.inverse.set k x }
  | .reflector => { m with reflector := x }
  | .plugboard => { m with plugboard := x }

/-- What an entry that is not listed reads as: the plugboard is the identity at reset (10_state R28, R39), every other
table is unspecified, so the free value `UNWRITTEN` (10_state R40, R41; log 3). -/
def Memory.unlisted (session : Nat) (t : TableId) (a : Index) : Index :=
  match t with
  | .plugboard => a
  | t => Config.unwritten session t a

/-- Read of one table entry (00_scope R15; 20_memory R54). -/
def Memory.read (session : Nat) (m : Memory) (t : TableId) (a : Index) : Index :=
  match (m.table t).entry a with
  | some v => v
  | none => Memory.unlisted session t a

/-- Write of one table entry. The canonical form lists no plugboard entry that equals the identity, so writing that
value takes the entry out; the other tables list whatever has been written (log 7). -/
def Memory.write (m : Memory) (t : TableId) (a v : Index) : Memory :=
  if t = .plugboard ∧ v = a then m.setTable t ((m.table t).unlist a)
  else m.setTable t ((m.table t).put a v)

/-- Whether a `WRW` or `WRF` (or, for `INV`, `BUILD`) has stored into the entry since the last reset (10_state R41). -/
def Memory.isWritten (m : Memory) (t : TableId) (a : Index) : Bool := ((m.table t).entry a).isSome

/-- The eight table names. -/
def allTables : List TableId :=
  [.wiring .left, .wiring .middle, .wiring .right, .inverse .left, .inverse .middle, .inverse .right,
   .reflector, .plugboard]

/-- The canonical form of memory: every table rising, and no plugboard entry listed that reads the same unlisted. -/
abbrev Memory.wf (m : Memory) : Prop :=
  (∀ t ∈ allTables, (m.table t).Rising) ∧ (m.plugboard.all fun e => e.2 != e.1) = true

/-! ## Tables and registers through the state -/

/-- One table entry as the block reads it in this state. -/
def State.readTable (s : State) (t : TableId) (a : Index) : Index := s.mem.read s.session t a

/-- `t[a] <- v`. -/
def State.writeTable (s : State) (t : TableId) (a v : Index) : State := { s with mem := s.mem.write t a v }

/-- `POS[k] <- v`. -/
def State.setPos (s : State) (k : Rotor) (v : Index) : State := { s with pos := s.pos.set k v }

/-- `RING[k] <- v`. -/
def State.setRing (s : State) (k : Rotor) (v : Index) : State := { s with ring := s.ring.set k v }

/-- `x in NOTCH[k]`: bit `x` of the mask (10_state R23). -/
def State.inNotch (s : State) (k : Rotor) (x : Index) : Bool := (s.notch.get k).getLsbD x.val

/-- `NOTCH[k] <- NOTCH[k] ∪ {x}`: set bit `x` of the mask (10_state R23). -/
def State.addNotch (s : State) (k : Rotor) (x : Index) : State :=
  { s with notch := s.notch.set k (s.notch.get k ||| BitVec.twoPow 26 x.val) }

/-- `PHASE <- p`. -/
def State.setPhase (s : State) (p : Phase) : State := { s with phase := p }

/-! ## Responses and errors -/

/-- The block gives one response (30_encoding R84). -/
def State.respond (s : State) (r : Response) : State := { s with responses := s.responses ++ [r] }

/-- A command that completes with a response. -/
def answer (r : Response) (s : State) : Result := .next (s.respond r)

/-- `FAULT` and `CAUSE` are sticky: `FAULT` becomes 1, and `CAUSE` takes the code only if `FAULT` was 0
(60_exceptions R236, R241). -/
def State.recordError (s : State) (e : ErrorKind) : State :=
  { s with fault := true, cause := if s.fault then s.cause else e.code }

/-- `raise e`: the error is recorded in `STATUS` and reported in the response, and nothing else changes
(60_exceptions R230, R236). This is all there is in the place of an exception: no handler is entered, so there is
nothing to return from (R240). -/
def raise (e : ErrorKind) (s : State) : Result := answer (.err e) (s.recordError e)

/-- The phase check of a command: in the wrong phase it raises `WRONG_PHASE` (60_exceptions R233). -/
def requirePhase (p : Phase) (s : State) (rest : Result) : Result :=
  if s.phase = p then rest else raise .wrongPhase s

/-! ## The host's moves -/

/-- The reset event: every piece of the block's state takes its reset condition, the tables unspecified anew, and no
response is given (70_reset R260, R261). The host's own record, the moves to come and the responses so far, stays. -/
def State.hostReset (s : State) : State :=
  { State.reset with session := s.session + 1, inbox := s.inbox, responses := s.responses }

/-- The state with the host's next move replaced by the moves after it. -/
def State.setInbox (s : State) (rest : List HostEvent) : State := { s with inbox := rest }

/-- The state in which the host's next move is to present the command word `w`. -/
def State.presentWord (s : State) (w : Word) : State := s.setInbox (.command w :: s.inbox)

end Sys2Proof.Machine
end

