-- ==== Sys2Proof/Machine/Operands.lean ====
section
/-! DEFINITION. Arithmetic modulo 26 (00_scope R11, 40_codec R104) and every operand form: the rotor select, the index
field that must be a letter's, and the index field that is reduced (30_encoding R75, R81, R82). -/

namespace Sys2Proof.Machine

/-- `a mod 26`: the non-negative residue of any integer (00_scope R11). -/
def mod26 (n : Int) : Index := ⟨(n % 26).toNat, by omega⟩

/-- The rotor a 2-bit select names: 0 left, 1 middle, 2 right, 3 none (30_encoding R82). -/
def rotorOfSelect (r : BitVec 2) : Option Rotor :=
  match r with
  | 0#2 => some .left
  | 1#2 => some .middle
  | 2#2 => some .right
  | _ => none

/-- The select that names a rotor (30_encoding R82). -/
def rotorSelect : Rotor → BitVec 2
  | .left => 0#2
  | .middle => 1#2
  | .right => 2#2

/-- A field that stands for a letter: its index, none for 26..31 (30_encoding R75). -/
def indexOfField (f : BitVec 5) : Option Index := if h : f.toNat < 26 then some ⟨f.toNat, h⟩ else none

/-- A ring or position field: always taken mod 26 (30_encoding R75). -/
def indexReduced (f : BitVec 5) : Index := mod26 f.toNat

/-- The 5-bit code of an index (30_encoding R81). -/
def indexCode (x : Index) : BitVec 5 := BitVec.ofNat 5 x.val

/-- `if r = 3: raise ILLEGAL_COMMAND`, else go on with the rotor (44_configuration R181, R184 to R186, R188). Decoding
already refuses such a word (log 13). -/
def withRotor (r : BitVec 2) (s : State) (rest : Rotor → Result) : Result :=
  match rotorOfSelect r with
  | some k => rest k
  | none => raise .illegalCommand s

/-- `if f > 25: raise INVALID_SYMBOL`, else go on with the index (60_exceptions R234). -/
def withIndex (f : BitVec 5) (s : State) (rest : Index → Result) : Result :=
  match indexOfField f with
  | some x => rest x
  | none => raise .invalidSymbol s

end Sys2Proof.Machine
end

