-- ==== Sys2Proof/Machine/Configure.lean ====
section
/-! DEFINITION. The commands of the CFG phase (44_configuration R181 to R187). Each checks encoding, phase and field
values in that order, and the first check that fails decides the error (60_exceptions R237). -/

namespace Sys2Proof.Machine

/-- `WRW r, i, v`: `W[r][i] <- v`, `ACK` (44_configuration R181). -/
def execWrw (r : BitVec 2) (i v : BitVec 5) (s : State) : Result :=
  withRotor r s fun k =>
    requirePhase .cfg s <|
      withIndex i s fun a => withIndex v s fun d => answer .ack (s.writeTable (.wiring k) a d)

/-- `WRF i, v`: `REF[i] <- v`, `ACK` (44_configuration R182). -/
def execWrf (i v : BitVec 5) (s : State) : Result :=
  requirePhase .cfg s <|
    withIndex i s fun a => withIndex v s fun d => answer .ack (s.writeTable .reflector a d)

/-- `PLUG a, b`: `PB[a] <- b`, then `PB[b] <- a`, `ACK` (44_configuration R183). An old partner is not unplugged. -/
def execPlug (a b : BitVec 5) (s : State) : Result :=
  requirePhase .cfg s <|
    withIndex a s fun x => withIndex b s fun y =>
      answer .ack ((s.writeTable .plugboard x y).writeTable .plugboard y x)

/-- `NOTCH r, n`: `NOTCH[r] <- NOTCH[r] ∪ {n}`, `ACK` (44_configuration R184). -/
def execNotch (r : BitVec 2) (n : BitVec 5) (s : State) : Result :=
  withRotor r s fun k => requirePhase .cfg s <| withIndex n s fun x => answer .ack (s.addNotch k x)

/-- `RING r, g`: `RING[r] <- g mod 26`, `ACK` (44_configuration R185). -/
def execRing (r : BitVec 2) (g : BitVec 5) (s : State) : Result :=
  withRotor r s fun k => requirePhase .cfg s <| answer .ack (s.setRing k (indexReduced g))

/-- `POS r, p`: `POS[r] <- p mod 26`, `ACK` (44_configuration R186). -/
def execPos (r : BitVec 2) (p : BitVec 5) (s : State) : Result :=
  withRotor r s fun k => requirePhase .cfg s <| answer .ack (s.setPos k (indexReduced p))

/-- A table of 26 indices is a permutation of 0..25: each index stands at one entry and, as there are 26 of both, at
one only (10_state R44). -/
abbrev isPermutation (w : Index → Index) : Prop := ∀ v, ∃ i, w i = v

/-- The first entry at which a table holds `v`. -/
def entryHolding (w : Index → Index) (v : Index) : Option Index := (List.finRange 26).find? fun i => w i == v

/-- The entry at `v` of the inverse `BUILD` computes: the `i` with `w i = v` when the wiring is a permutation
(44_configuration R187), and otherwise an index the spec leaves open (log 4). -/
def builtInverse (session : Nat) (k : Rotor) (w : Index → Index) (v : Index) : Index :=
  match entryHolding w v with
  | some i => if isPermutation w then i else Config.invOfNonPerm session k (List.ofFn w) v
  | none => Config.invOfNonPerm session k (List.ofFn w) v

/-- All 78 entries of `INV` computed from all of `W` (44_configuration R187; 20_memory R62). -/
def State.computeInverses (s : State) : State :=
  let inv (k : Rotor) : Table := Table.full (builtInverse s.session k (s.readTable (.wiring k)))
  { s with mem := { s.mem with inverse := ⟨inv .left, inv .middle, inv .right⟩ } }

/-- `BUILD`: compute `INV`, `PHASE <- RUN`, `ACK` (44_configuration R187). It checks nothing (R190). -/
def execBuild (s : State) : Result :=
  requirePhase .cfg s <| answer .ack (s.computeInverses.setPhase .run)

end Sys2Proof.Machine
end

