-- ==== Sys2Proof/Machine/Codec.lean ====
section
/-! DEFINITION. The alphabet codec (40_codec R101 to R103). -/

namespace Sys2Proof.Machine

/-- `ISLETTER(c)`: `0x41 <= c <= 0x5A` (40_codec R101). -/
def isLetter (c : Character) : Bool := decide (0x41 ≤ c.toNat ∧ c.toNat ≤ 0x5A)

/-- `L2I(c)`: the letter's index `c - 0x41`; none where the rule raises `InvalidSymbol`, which no command reaches
because each tests `ISLETTER` first (40_codec R102). -/
def l2i (c : Character) : Option Index := if isLetter c then some (mod26 (c.toNat - 0x41)) else none

/-- `I2L(n)`: `0x41 + (n mod 26)`, for any integer (40_codec R103). -/
def i2l (n : Int) : Character := BitVec.ofNat 8 (0x41 + (mod26 n).val)

end Sys2Proof.Machine
end

