-- ==== Sys2Proof/Machine/RotorOps.lean ====
section
/-! DEFINITION. The four operations of one rotor (41_rotor R121 to R124). -/

namespace Sys2Proof.Machine

/-- The way through a rotor by table `t`: enter at `x + POS - RING`, look up, leave at `- POS + RING`, each taken
mod 26 (41_rotor R121, R122: the signs are the same both ways, only the table differs). -/
def routeThrough (s : State) (k : Rotor) (t : TableId) (x : Index) : Index :=
  let p : Int := (s.pos.get k).val
  let g : Int := (s.ring.get k).val
  let contact := mod26 (x.val + p - g)
  let internal := s.readTable t contact
  mod26 (internal.val - p + g)

/-- `FWD(k, x)`: right to left, by `W[k]` (41_rotor R121). -/
def fwd (s : State) (k : Rotor) (x : Index) : Index := routeThrough s k (.wiring k) x

/-- `BWD(k, x)`: left to right, by `INV[k]` (41_rotor R122). -/
def bwd (s : State) (k : Rotor) (x : Index) : Index := routeThrough s k (.inverse k) x

/-- `ADV(k)`: `POS[k] <- (POS[k] + 1) mod 26` (41_rotor R123). -/
def adv (k : Rotor) (s : State) : State := s.setPos k (mod26 ((s.pos.get k).val + 1))

/-- `ATNOTCH(k)`: `POS[k] in NOTCH[k]` (41_rotor R124). -/
def atNotch (k : Rotor) (s : State) : Bool := s.inNotch k (s.pos.get k)

end Sys2Proof.Machine
end

