-- ==== Sys2Proof/Machine/Pipeline.lean ====
section
/-! DEFINITION. The letter-substitution path (43_pipeline R160 to R162). -/

namespace Sys2Proof.Machine

/-- `PLUGMAP(x)`: `PB[x]` (43_pipeline R160). -/
def plugMap (s : State) (x : Index) : Index := s.readTable .plugboard x

/-- `REFL(x)`: `REF[x]` (43_pipeline R161). -/
def reflMap (s : State) (x : Index) : Index := s.readTable .reflector x

/-- `TRANSFORM(x)`: plugboard, right, middle, left forward, reflector, left, middle, right backward, plugboard, at the
positions the state holds (43_pipeline R162). It writes nothing (R169). -/
def transform (s : State) (x : Index) : Index :=
  let t0 := plugMap s x
  let t1 := fwd s .right t0
  let t2 := fwd s .middle t1
  let t3 := fwd s .left t2
  let t4 := reflMap s t3
  let t5 := bwd s .left t4
  let t6 := bwd s .middle t5
  let t7 := bwd s .right t6
  plugMap s t7

end Sys2Proof.Machine
end

