-- ==== Sys2Proof/Machine/Stepping.lean ====
section
/-! DEFINITION. The stepping transition `STEP` (42_stepping R142). -/

namespace Sys2Proof.Machine

/-- `STEP`: both decisions are taken from the snapshot of the positions before any advance, then left, middle and right
are advanced in that order, the right rotor always (42_stepping R142, R143; 70_reset R266). -/
def stepRotors (s : State) : State :=
  let rightOld := s.pos.right
  let midOld := s.pos.middle
  let advanceLeft := s.inNotch .middle midOld
  let advanceMiddle := s.inNotch .middle midOld || s.inNotch .right rightOld
  let s1 := if advanceLeft then adv .left s else s
  let s2 := if advanceMiddle then adv .middle s1 else s1
  adv .right s2

end Sys2Proof.Machine
end

