-- ==== Sys2Proof/Machine/Encrypt.lean ====
section
/-! DEFINITION. The commands of the RUN phase (43_pipeline R163, R164). -/

namespace Sys2Proof.Machine

/-- The letter branch the two commands share: `STEP`, then `TRANSFORM` at the advanced positions, then `SYM`
(43_pipeline R163, R164, R168). -/
def encryptLetter (x : Index) (s : State) : Result :=
  let stepped := stepRotors s
  answer (.sym (i2l (transform stepped x).val)) stepped

/-- `ENC c`: a non-letter passes through as `SYM(c)` with no step (43_pipeline R163). -/
def execEnc (c : Character) (s : State) : Result :=
  requirePhase .run s <|
    match l2i c with
    | none => answer (.sym c) s
    | some x => encryptLetter x s

/-- `ENCT c`: a non-letter is dropped, answered `ACK` with no step (43_pipeline R164). -/
def execEnct (c : Character) (s : State) : Result :=
  requirePhase .run s <|
    match l2i c with
    | none => answer .ack s
    | some x => encryptLetter x s

end Sys2Proof.Machine
end

