-- ==== Sys2Proof/Machine/Observe.lean ====
section
/-! DEFINITION. The two read commands, allowed in both phases (44_configuration R188, R189). -/

namespace Sys2Proof.Machine

/-- `RDPOS r`: `VAL(POS[r])`, nothing written, no step (44_configuration R188). -/
def execRdpos (r : BitVec 2) (s : State) : Result :=
  withRotor r s fun k => answer (.val (indexCode (s.pos.get k))) s

/-- `RDST`: `VAL(STATUS)`, nothing written or cleared (44_configuration R189). -/
def execRdst (s : State) : Result := answer (.val s.status) s

end Sys2Proof.Machine
end

