-- ==== Sys2Proof/Machine/Dispatch.lean ====
section
/-! DEFINITION. The meaning of each command, one arm per row of the opcode table (30_encoding R73). -/

namespace Sys2Proof.Machine

def exec (i : Instr) (s : State) : Host.Outcome State Fault Refusal :=
  match i with
  | .wrw r a v => Sys2Proof.Machine.execWrw r a v s
  | .wrf a v => Sys2Proof.Machine.execWrf a v s
  | .plug a b => Sys2Proof.Machine.execPlug a b s
  | .notch r n => Sys2Proof.Machine.execNotch r n s
  | .ring r g => Sys2Proof.Machine.execRing r g s
  | .pos r p => Sys2Proof.Machine.execPos r p s
  | .build => Sys2Proof.Machine.execBuild s
  | .enc c => Sys2Proof.Machine.execEnc c s
  | .enct c => Sys2Proof.Machine.execEnct c s
  | .rdpos r => Sys2Proof.Machine.execRdpos r s
  | .rdst => Sys2Proof.Machine.execRdst s

end Sys2Proof.Machine
end

