-- ==== Sys2Proof/Machine/Step.lean ====
section
/-! DEFINITION. One step: the host's next move, executed whole (00_scope R16). -/

namespace Sys2Proof.Machine

/-- One step. With no move of the host pending the block holds its state (60_exceptions R238, R247). A reset is carried
out between commands (70_reset R260). A command word is decoded and its command executed; a word that spells no command
raises `ILLEGAL_COMMAND` in either phase (60_exceptions R232). -/
def step (s : State) : Host.Outcome State Fault Refusal :=
  match s.inbox with
  | [] => .next s
  | .reset :: rest => .next (s.setInbox rest).hostReset
  | .command w :: rest =>
    match decode w with
    | .ok i => exec i (s.setInbox rest)
    | .error _ => raise .illegalCommand (s.setInbox rest)

/-- The state in which the next step executes the low `nbits` bits of `w` as one command word: the block stores no
command, so the word is placed as the host's next move (10_state R30, log 6). -/
def State.withFetchWord (s : State) (nbits w : Nat) : State :=
  s.presentWord (BitVec.ofNat 16 (w % 2 ^ nbits))

end Sys2Proof.Machine
end

