-- ==== Sys2Proof/Machine/Session.lean ====
section
/-! DEFINITION. What a host sends in a session, as lists of commands: the configuration tuple (00_scope R9) and the
commands that load it (44_configuration R194), the pseudo-instructions (30_encoding R87), `encryptText` (43_pipeline
R165) and the output text (43_pipeline R171). None of it is state of the block (10_state R37). -/

namespace Sys2Proof.Machine

/-- The commands of a list, executed in order, each to completion before the next (20_memory R57). -/
def execAll : List Instr → State → Result
  | [], s => .next s
  | i :: is, s =>
    match exec i s with
    | .next t => execAll is t
    | .fault f => .fault f
    | .refused r => .refused r

/-- `ROTOR k, "s"`: one `WRW` per letter of `s`, given by their indices, from entry 0 on (30_encoding R87). -/
def pseudoRotor (k : Rotor) (s : List Index) : List Instr :=
  ((List.finRange 26).zip s).map fun e => .wrw (rotorSelect k) (indexCode e.1) (indexCode e.2)

/-- `REFLECTOR "s"` (30_encoding R87). -/
def pseudoReflector (s : List Index) : List Instr :=
  ((List.finRange 26).zip s).map fun e => .wrf (indexCode e.1) (indexCode e.2)

/-- `NOTCHES k, "s"` (30_encoding R87). -/
def pseudoNotches (k : Rotor) (s : List Index) : List Instr := s.map fun x => .notch (rotorSelect k) (indexCode x)

/-- `RINGS "xyz"` (30_encoding R87). -/
def pseudoRings (x : PerRotor Index) : List Instr :=
  [.ring (rotorSelect .left) (indexCode x.left), .ring (rotorSelect .middle) (indexCode x.middle),
   .ring (rotorSelect .right) (indexCode x.right)]

/-- `START "xyz"` (30_encoding R87). -/
def pseudoStart (x : PerRotor Index) : List Instr :=
  [.pos (rotorSelect .left) (indexCode x.left), .pos (rotorSelect .middle) (indexCode x.middle),
   .pos (rotorSelect .right) (indexCode x.right)]

/-- `PLUGS "ab cd ..."` (30_encoding R87). -/
def pseudoPlugs (ps : List (Index × Index)) : List Instr := ps.map fun p => .plug (indexCode p.1) (indexCode p.2)

/-- `TEXT "s"`: one `ENCT` per character, which is `encryptText(s)` (30_encoding R87; 43_pipeline R165). -/
def pseudoText (s : List Character) : List Instr := s.map .enct

/-- The configuration a machine is constructed from (00_scope R9), tables as their 26 entries from entry 0 on, the
plugboard as its letter pairs (44_configuration R194). -/
structure Configuration where
  wiring : PerRotor (List Index)
  notch : PerRotor (List Index)
  ring : PerRotor Index
  start : PerRotor Index
  reflector : List Index
  plugs : List (Index × Index)
  deriving DecidableEq, Repr

/-- One command per rotor whose value is not the default A/0, which reset leaves (44_configuration R194). -/
def nonDefaultCommands (f : Rotor → Index → Instr) (x : PerRotor Index) : List Instr :=
  ([.left, .middle, .right].filter fun k => x.get k != 0).map fun k => f k (x.get k)

/-- The CFG-phase commands that load a configuration, without the `BUILD` that ends it: a `RING` or `POS` that would
load the default is omitted (44_configuration R194). -/
def Configuration.commands (c : Configuration) : List Instr :=
  pseudoRotor .left c.wiring.left ++ pseudoRotor .middle c.wiring.middle ++ pseudoRotor .right c.wiring.right ++
    pseudoReflector c.reflector ++
    pseudoNotches .left c.notch.left ++ pseudoNotches .middle c.notch.middle ++ pseudoNotches .right c.notch.right ++
    nonDefaultCommands (fun k g => .ring (rotorSelect k) (indexCode g)) c.ring ++
    nonDefaultCommands (fun k p => .pos (rotorSelect k) (indexCode p)) c.start ++ pseudoPlugs c.plugs

/-- The character a response contributes to the output text: `SYM(c)` its `c`, the others none (43_pipeline R171). -/
def Response.character : Response → Option Character
  | .ack => none
  | .sym c => some c
  | .val _ => none
  | .err _ => none

/-- The output text of a sequence of responses (43_pipeline R171). -/
def outputText (rs : List Response) : List Character := rs.filterMap Response.character

end Sys2Proof.Machine
end

