-- ==== Sys2Proof/Machine/Assembly.lean ====
section
/-! DEFINITION. The assembler notation (30_encoding R86, R87): from a line of text to commands and their words. It is
the host's, no part of the block. How blanks and quotes are read is the model's choice (log 15). -/

namespace Sys2Proof.Machine

/-- A piece of a line: a mnemonic, rotor name or number; a character in single quotes; a text in double quotes; a
comma. -/
inductive Token where
  | word (s : List Char)
  | quoted (c : Char)
  | text (s : List Char)
  | comma
  deriving DecidableEq, Repr

/-- Where in a line the scanner is: outside quotes, with the word read so far; after an opening single quote; after the
character that follows it; in a text, with what it holds so far. Both are kept in reverse. -/
inductive ScanMode where
  | plain (w : List Char)
  | quote
  | closing (c : Char)
  | inText (t : List Char)
  deriving DecidableEq, Repr

/-- The word read so far as a token in front of those that follow, if there is one. -/
def endWord (w : List Char) (ts : List Token) : List Token := if w = [] then ts else .word w.reverse :: ts

/-- The tokens of a line; none where a quote does not close. A comment runs from `;` outside quotes to the end. -/
def scan : List Char → ScanMode → Option (List Token)
  | [], .plain w => some (endWord w [])
  | [], .quote => none
  | [], .closing _ => none
  | [], .inText _ => none
  | c :: cs, .quote => scan cs (.closing c)
  | c :: cs, .closing d => if c = '\'' then (scan cs (.plain [])).map (.quoted d :: ·) else none
  | c :: cs, .inText t =>
    if c = '"' then (scan cs (.plain [])).map (.text t.reverse :: ·) else scan cs (.inText (c :: t))
  | c :: cs, .plain w =>
    if c = ';' then some (endWord w [])
    else if c = ' ' ∨ c = '\t' then (scan cs (.plain [])).map (endWord w)
    else if c = ',' then (scan cs (.plain [])).map fun ts => endWord w (.comma :: ts)
    else if c = '\'' then (scan cs .quote).map (endWord w)
    else if c = '"' then (scan cs (.inText [])).map (endWord w)
    else scan cs (.plain (c :: w))

/-! ## Operands -/

/-- The 8-bit code of a character; none for a character that has no such code. -/
def characterOf (c : Char) : Option Character := if c.toNat < 256 then some (BitVec.ofNat 8 c.toNat) else none

/-- `idx(letter(i)) = i`; none for a character that is no letter (30_encoding R87). -/
def letterOf (c : Char) : Option Index := (characterOf c).bind l2i

/-- The value of a digit below `base`. -/
def digitOf (base : Nat) (c : Char) : Option Nat :=
  let n := c.toNat
  let d := if 0x30 ≤ n ∧ n ≤ 0x39 then n - 0x30
    else if 0x41 ≤ n ∧ n ≤ 0x46 then n - 0x37
    else if 0x61 ≤ n ∧ n ≤ 0x66 then n - 0x57
    else base
  if d < base then some d else none

/-- The number its digits spell, most significant first. -/
def numberOf (base : Nat) (s : List Char) : Option Nat :=
  if s = [] then none else s.foldlM (fun n c => (digitOf base c).map (n * base + ·)) 0

/-- A rotor operand: `L`, `M` or `R` (30_encoding R86). -/
def rotorOperand (t : Token) : Option Rotor :=
  if t = .word ['L'] then some .left
  else if t = .word ['M'] then some .middle
  else if t = .word ['R'] then some .right
  else none

/-- An index operand: a decimal number 0..31, or a letter in single quotes (30_encoding R86). -/
def indexOperand : Token → Option (BitVec 5)
  | .word s => (numberOf 10 s).bind fun n => if n < 32 then some (BitVec.ofNat 5 n) else none
  | .quoted c => (letterOf c).map indexCode
  | .text _ => none
  | .comma => none

/-- A character operand: a character in single quotes, or a number, decimal or with `0x` hexadecimal (30_encoding
R86). -/
def characterOperand : Token → Option Character
  | .word ('0' :: 'x' :: s) => (numberOf 16 s).bind fun n => if n < 256 then some (BitVec.ofNat 8 n) else none
  | .word s => (numberOf 10 s).bind fun n => if n < 256 then some (BitVec.ofNat 8 n) else none
  | .quoted c => characterOf c
  | .text _ => none
  | .comma => none

/-- Exactly three letters, for the rotors left, middle, right (30_encoding R82, R87). -/
def threeLetters (s : List Char) : Option (PerRotor Index) :=
  match s.mapM letterOf with
  | some [x, y, z] => some ⟨x, y, z⟩
  | _ => none

/-- The 26 letters of a table (30_encoding R87). -/
def tableLetters (s : List Char) : Option (List Index) := if s.length = 26 then s.mapM letterOf else none

/-- Pairs of letters separated by spaces (30_encoding R87). -/
def letterPairs : List Char → Option (List (Index × Index))
  | [] => some []
  | [_] => none
  | ' ' :: b :: cs => letterPairs (b :: cs)
  | a :: b :: cs =>
    match letterOf a, letterOf b, cs with
    | some x, some y, [] => some [(x, y)]
    | some x, some y, c :: rest => if c = ' ' then (letterPairs rest).map ((x, y) :: ·) else none
    | _, _, _ => none

/-! ## Lines -/

/-- The commands of one mnemonic with its operands; none where they are not what the mnemonic takes. -/
def assembleOperands (m : List Char) (operands : List Token) : Option (List Instr) :=
  match operands with
  | [] =>
    if m = ['B', 'U', 'I', 'L', 'D'] then some [.build]
    else if m = ['R', 'D', 'S', 'T'] then some [.rdst]
    else none
  | [.text s] =>
    if m = ['R', 'E', 'F', 'L', 'E', 'C', 'T', 'O', 'R'] then (tableLetters s).map pseudoReflector
    else if m = ['R', 'I', 'N', 'G', 'S'] then (threeLetters s).map pseudoRings
    else if m = ['S', 'T', 'A', 'R', 'T'] then (threeLetters s).map pseudoStart
    else if m = ['P', 'L', 'U', 'G', 'S'] then (letterPairs s).map pseudoPlugs
    else if m = ['T', 'E', 'X', 'T'] then (s.mapM characterOf).map pseudoText
    else none
  | [t] =>
    if m = ['E', 'N', 'C'] then (characterOperand t).map fun c => [.enc c]
    else if m = ['E', 'N', 'C', 'T'] then (characterOperand t).map fun c => [.enct c]
    else if m = ['R', 'D', 'P', 'O', 'S'] then (rotorOperand t).map fun k => [.rdpos (rotorSelect k)]
    else none
  | [t, .comma, .text s] =>
    if m = ['R', 'O', 'T', 'O', 'R'] then (rotorOperand t).bind fun k => (tableLetters s).map (pseudoRotor k)
    else if m = ['N', 'O', 'T', 'C', 'H', 'E', 'S'] then
      (rotorOperand t).bind fun k => (s.mapM letterOf).map (pseudoNotches k)
    else none
  | [t, .comma, u] =>
    if m = ['W', 'R', 'F'] then (indexOperand t).bind fun i => (indexOperand u).map fun v => [.wrf i v]
    else if m = ['P', 'L', 'U', 'G'] then (indexOperand t).bind fun a => (indexOperand u).map fun b => [.plug a b]
    else (rotorOperand t).bind fun k =>
      (indexOperand u).bind fun v =>
        if m = ['N', 'O', 'T', 'C', 'H'] then some [.notch (rotorSelect k) v]
        else if m = ['R', 'I', 'N', 'G'] then some [.ring (rotorSelect k) v]
        else if m = ['P', 'O', 'S'] then some [.pos (rotorSelect k) v]
        else none
  | [t, .comma, u, .comma, x] =>
    if m = ['W', 'R', 'W'] then
      (rotorOperand t).bind fun k =>
        (indexOperand u).bind fun i => (indexOperand x).map fun v => [.wrw (rotorSelect k) i v]
    else none
  | _ => none

/-- The commands a line stands for: none of them for an empty line or a comment, one for a mnemonic, several for a
pseudo-instruction; `none` for a line that is not in the notation (30_encoding R86, R87). -/
def assembleLine (line : List Char) : Option (List Instr) :=
  match scan line (.plain []) with
  | some [] => some []
  | some (.word m :: operands) => assembleOperands m operands
  | _ => none

/-- The command words of a text, line by line. -/
def assemble (lines : List (List Char)) : Option (List Word) :=
  (lines.mapM assembleLine).map fun is => is.flatten.map encode

end Sys2Proof.Machine
end

