-- ==== Sys2Proof/Safety.lean ====
section
/-! DEFINITION. The terms claims are stated in: well-formed configurations (10_state R44), the invariants of the state,
what a run without errors is, and what two states share. -/

namespace Sys2Proof.Machine

/-! ## Well-formed configuration (10_state R44) -/

/-- `WFW(k)`: all 26 entries of `W[k]` are written and they form a permutation. -/
def State.WFW (s : State) (k : Rotor) : Prop :=
  (∀ a, s.mem.isWritten (.wiring k) a = true) ∧ isPermutation (s.readTable (.wiring k))

/-- `WFREF`: all 26 entries of `REF` are written, `REF[REF[i]] = i` and `REF[i] ≠ i`. -/
def State.WFREF (s : State) : Prop :=
  (∀ a, s.mem.isWritten .reflector a = true) ∧
    ∀ i, s.readTable .reflector (s.readTable .reflector i) = i ∧ s.readTable .reflector i ≠ i

/-- `WFPB`: `PB[PB[i]] = i`. -/
def State.WFPB (s : State) : Prop := ∀ i, s.readTable .plugboard (s.readTable .plugboard i) = i

/-- `WF`: what the source calls a valid configuration. -/
def State.WF (s : State) : Prop := (∀ k, s.WFW k) ∧ s.WFREF ∧ s.WFPB

/-! ## Invariants -/

/-- `FAULT = 0` if and only if `CAUSE = 0`, and `CAUSE` is one of 0, 1, 2, 3 (10_state R32). -/
def State.statusLegal (s : State) : Prop := (s.fault = false ↔ s.cause = 0#3) ∧ s.cause.toNat ≤ 3

/-- In the RUN phase every entry of `INV` is written, and a wiring that is a permutation has its inverse in `INV`
(10_state R45; 44_configuration R187). -/
def State.inverseBuilt (s : State) : Prop :=
  s.phase = .run → ∀ k, (∀ a, s.mem.isWritten (.inverse k) a = true) ∧
    (isPermutation (s.readTable (.wiring k)) →
      ∀ i, s.readTable (.inverse k) (s.readTable (.wiring k) i) = i)

/-- The invariant every step keeps: canonical tables, a legal `STATUS`, and `INV` built in the RUN phase. -/
def State.Inv (s : State) : Prop := s.mem.wf ∧ s.statusLegal ∧ s.inverseBuilt

/-! ## Runs -/

/-- The test for "nothing went wrong" since reset (60_exceptions R241). -/
def State.nothingWentWrong (s : State) : Prop := s.fault = false

/-- The error of the first check that fails (60_exceptions R237): encoding, then phase, then field values. `none` when
the command raises no error. -/
def firstFailedCheck (i : Instr) (p : Phase) : Option ErrorKind :=
  let tooBig (f : BitVec 5) : Bool := decide (25 < f.toNat)
  let check (legal inPhase valuesLegal : Bool) : Option ErrorKind :=
    if !legal then some .illegalCommand
    else if !inPhase then some .wrongPhase
    else if !valuesLegal then some .invalidSymbol
    else none
  match i with
  | .wrw r i v => check (r != 3#2) (p == .cfg) (!tooBig i && !tooBig v)
  | .wrf i v => check true (p == .cfg) (!tooBig i && !tooBig v)
  | .plug a b => check true (p == .cfg) (!tooBig a && !tooBig b)
  | .notch r n => check (r != 3#2) (p == .cfg) (!tooBig n)
  | .ring r _ => check (r != 3#2) (p == .cfg) true
  | .pos r _ => check (r != 3#2) (p == .cfg) true
  | .build => check true (p == .cfg) true
  | .enc _ => check true (p == .run) true
  | .enct _ => check true (p == .run) true
  | .rdpos r => check (r != 3#2) true true
  | .rdst => check true true true

/-- The state after a command answered with `ERR(e)`, said independently of the operations: only `FAULT` and `CAUSE`
change, and the response is added (60_exceptions R236, R241). -/
def State.errorAnswered (s : State) (e : ErrorKind) (code : BitVec 3) : State :=
  { s with fault := true, cause := if s.fault then s.cause else code, responses := s.responses ++ [.err e] }

/-- An `ENC` or `ENCT` of a letter: the only commands that step the rotors (42_stepping R141). -/
def isLetterCommand : Instr → Bool
  | .wrw _ _ _ => false
  | .wrf _ _ => false
  | .plug _ _ => false
  | .notch _ _ => false
  | .ring _ _ => false
  | .pos _ _ => false
  | .build => false
  | .enc c => isLetter c
  | .enct c => isLetter c
  | .rdpos _ => false
  | .rdst => false

/-- The two letters of a `PLUG` command. None for another command, and none for a `PLUG` with a field that is no
letter, which connects nothing (60_exceptions R234). -/
def plugLetters : Instr → List (BitVec 5)
  | .wrw _ _ _ => []
  | .wrf _ _ => []
  | .plug a b => if a.toNat ≤ 25 ∧ b.toNat ≤ 25 then [a, b] else []
  | .notch _ _ => []
  | .ring _ _ => []
  | .pos _ _ => []
  | .build => []
  | .enc _ => []
  | .enct _ => []
  | .rdpos _ => []
  | .rdst => []

/-- The commands of a list that fall into the CFG phase of a session: those before the first `BUILD` (60_exceptions
R245). -/
def cfgPhaseCommands (is : List Instr) : List Instr := is.takeWhile fun i => i != .build

/-- No letter stands in more than one `PLUG` command of the session's CFG phase (45_properties R217). -/
def plugsDisjoint (is : List Instr) : Prop :=
  (cfgPhaseCommands is).Pairwise fun i j => ∀ x, x ∈ plugLetters i → x ∉ plugLetters j

/-! ## The way of a letter -/

/-- One pass through rotor `k` by table `t` takes `x` to `y`, on integers and without the operations of the machine:
enter at contact `x + POS - RING`, look up, leave at `- POS + RING`, each mod 26 (41_rotor R121, R122). -/
def State.passes (s : State) (k : Rotor) (t : TableId) (x y : Index) : Prop :=
  ∃ c : Index, (c.val : Int) = ((x.val : Int) + (s.pos.get k).val - (s.ring.get k).val) % 26 ∧
    (y.val : Int) = (((s.readTable t c).val : Int) - (s.pos.get k).val + (s.ring.get k).val) % 26

/-- `ts` are the nine intermediate results `t0` to `t8` of the letter path from `x` (43_pipeline R162). -/
def State.letterPath (s : State) (x : Index) (ts : Vector Index 9) : Prop :=
  ts[0] = s.readTable .plugboard x ∧
  s.passes .right (.wiring .right) ts[0] ts[1] ∧
  s.passes .middle (.wiring .middle) ts[1] ts[2] ∧
  s.passes .left (.wiring .left) ts[2] ts[3] ∧
  ts[4] = s.readTable .reflector ts[3] ∧
  s.passes .left (.inverse .left) ts[4] ts[5] ∧
  s.passes .middle (.inverse .middle) ts[5] ts[6] ∧
  s.passes .right (.inverse .right) ts[6] ts[7] ∧
  ts[8] = s.readTable .plugboard ts[7]

/-! ## Letters of the assembler notation -/

/-- The letter of an index as a character of text (30_encoding R80). -/
def letterChar (x : Index) : Char := Char.ofNat (0x41 + x.val)

/-- The letters of plug pairs, the pairs separated by spaces (30_encoding R87). -/
def pairsText : List (Index × Index) → List Char
  | [] => []
  | [p] => [letterChar p.1, letterChar p.2]
  | p :: q :: ps => letterChar p.1 :: letterChar p.2 :: ' ' :: pairsText (q :: ps)

/-! ## What two states share -/

/-- Every table entry reads alike, but for those named by `except`. -/
def State.sameTables (s t : State) (except : TableId → Index → Prop) : Prop :=
  ∀ tab a, ¬ except tab a → t.readTable tab a = s.readTable tab a

/-- `PHASE`, `FAULT`, `CAUSE` alike, and the model's own `session` and `inbox`. -/
def State.sameControl (s t : State) : Prop :=
  t.phase = s.phase ∧ t.fault = s.fault ∧ t.cause = s.cause ∧ t.session = s.session ∧ t.inbox = s.inbox

/-- Alike but for the session number, that is for the free values of unwritten entries. -/
def State.sameButSession (s t : State) : Prop := t = { s with session := t.session }

end Sys2Proof.Machine
end

