-- ==== Sys2Proof/Certificates/Slice0/Obligations.lean ====
section
/-! DEFINITION. The statements for the provers. Each docstring names the rule of spec/ it formalises, or, for a derived
one, the sections it rests on. -/

open Sys2Proof Sys2Proof.Machine

/-! ## Encoding -/

/-- Decoding the word of a well-formed command gives the command back, with every operand at every value its field
admits (30_encoding, sections 1 and 3). -/
def Obligations.DecodeOfEncode : Prop :=
  ∀ i : Instr, i.wellFormed = true → decode (encode i) = .ok i

/-- A word that decodes is the one word of its command, so no bit is ignored (30_encoding, sections 1 and 3). -/
def Obligations.EncodeOfDecode : Prop :=
  ∀ (w : Word) (i : Instr), decode w = .ok i → encode i = w ∧ i.wellFormed = true

/-- 30_encoding R74: a word with a command's opcode and a 1 in one of its must-be-zero bits spells no command, and a
step does not execute it. A row's mask covers the opcode and the must-be-zero bits. -/
def Obligations.MustBeZeroBitsChecked : Prop :=
  ∀ row ∈ opcodeTable, ∀ w : Word, opField w = opField row.pattern → w &&& row.mask ≠ row.pattern →
    (∃ e, decode w = .error e) ∧
      ∀ (s : State) (rest : List HostEvent), s.inbox = .command w :: rest →
        step s = .next ((s.setInbox rest).errorAnswered .illegalCommand 1#3)

/-- Decoding agrees with the opcode map's match, mask and rotor condition, both ways (30_encoding, section 1). -/
def Obligations.OpcodeMapSelectsCommand : Prop :=
  ∀ w : Word, (∀ i, decode w = .ok i → (opcodeRow i).accepts w = true ∧ opcodeRow i ∈ opcodeTable) ∧
    ∀ row ∈ opcodeTable, row.accepts w = true → ∃ i, decode w = .ok i ∧ opcodeRow i = row

/-- A word spells no command in the seven cases listed and in no other (30_encoding, section 3). -/
def Obligations.IllegalWordCases : Prop :=
  ∀ w : Word, (∃ e, decode w = .error e) ↔
    (opField w = 0x0#4 ∨ opField w = 0xC#4 ∨ opField w = 0xD#4 ∨ opField w = 0xE#4 ∨ opField w = 0xF#4) ∨
    ((opField w = 0x1#4 ∨ opField w = 0x4#4 ∨ opField w = 0x5#4 ∨ opField w = 0x6#4 ∨ opField w = 0xA#4) ∧
      rField w = 3#2) ∨
    ((opField w = 0x2#4 ∨ opField w = 0x3#4) ∧ rField w ≠ 0#2) ∨
    ((opField w = 0x4#4 ∨ opField w = 0x5#4 ∨ opField w = 0x6#4) ∧ iField w ≠ 0#5) ∨
    ((opField w = 0x7#4 ∨ opField w = 0xB#4) ∧ w.extractLsb' 0 12 ≠ 0#12) ∨
    ((opField w = 0x8#4 ∨ opField w = 0x9#4) ∧ w.extractLsb' 8 4 ≠ 0#4) ∨
    (opField w = 0xA#4 ∧ w.extractLsb' 0 10 ≠ 0#10)

/-- A few words of the spec decode to the commands it says (95_test_vectors, section 3.6). -/
def Obligations.SpecWordsDecode : Prop :=
  decode 0x182D#16 = .ok (.wrw 2#2 1#5 13#5) ∧ decode 0x200D#16 = .ok (.wrf 0#5 13#5) ∧
  decode 0x30EB#16 = .ok (.plug 7#5 11#5) ∧ decode 0x4402#16 = .ok (.notch 1#2 2#5) ∧
  decode 0x541C#16 = .ok (.ring 1#2 28#5) ∧ decode 0x6815#16 = .ok (.pos 2#2 21#5) ∧
  decode 0x7000#16 = .ok .build ∧ decode 0x8033#16 = .ok (.enc 0x33#8) ∧
  decode 0x905A#16 = .ok (.enct 0x5A#8) ∧ decode 0xA400#16 = .ok (.rdpos 1#2) ∧ decode 0xB000#16 = .ok .rdst

/-! ## The step -/

/-- When the host's next move is a command word that decodes to `i`, the step is `exec i` at the state with that move
taken (00_scope, section 6; 30_encoding, section 3). The inbox is the model's own (log 1). -/
def Obligations.StepRunsDecodedCommand : Prop :=
  ∀ (s : State) (w : Word) (rest : List HostEvent) (i : Instr), s.inbox = .command w :: rest → decode w = .ok i →
    step s = exec i (s.setInbox rest)

/-- 60_exceptions R232: a word that matches none of the eleven commands raises `ILLEGAL_COMMAND`, from the word alone,
in either phase, with the response word 0xF001. -/
def Obligations.IllegalWordAnswered : Prop :=
  (∀ (s : State) (w : Word) (rest : List HostEvent), s.inbox = .command w :: rest →
    (∀ row ∈ opcodeTable, row.accepts w = false) →
      step s = .next ((s.setInbox rest).errorAnswered .illegalCommand 1#3)) ∧
  (Response.err .illegalCommand).toWord = 0xF001#16

/-- A reset puts the block's state into its reset condition whatever it was, with no response, and with no move pending
the block holds its state (70_reset, section 1; 60_exceptions, sections 4 and 6). The session number and what stays of
the host's side are the model's choice (log 1, log 2, log 3). -/
def Obligations.HostMovesBetweenCommands : Prop :=
  (∀ (s : State) (rest : List HostEvent), s.inbox = .reset :: rest →
    step s = .next { State.reset with session := s.session + 1, inbox := rest, responses := s.responses }) ∧
  ∀ s : State, s.inbox = [] → step s = .next s

/-- 10_state R39: the values after reset, at the start and after every later reset event. -/
def Obligations.ResetValues : Prop :=
  ∀ t : State, (t = State.reset ∨ ∃ s : State, t = s.hostReset) →
    t.phase = .cfg ∧ t.fault = false ∧ t.cause = 0#3 ∧
    (∀ k, t.pos.get k = 0 ∧ t.ring.get k = 0) ∧ (∀ k x, t.inNotch k x = false) ∧
    ∀ i, t.readTable .plugboard i = i

/-! ## The invariant -/

/-- The invariant holds after reset (10_state, sections 4, 5 and 7; the canonical form is the model's, log 7). -/
def Obligations.ResetMeetsInvariant : Prop := State.reset.Inv

/-- Every step keeps the invariant: canonical tables, `FAULT = 0` iff `CAUSE = 0` with `CAUSE` at most 3, and in the RUN
phase `INV` written and inverse to every `W` that is a permutation (10_state, sections 4 and 5; 44_configuration,
section 2; the canonical form is the model's, log 7). -/
def Obligations.StepKeepsInvariant : Prop :=
  ∀ s t : State, s.Inv → step s = .next t → t.Inv

/-! ## The configuration commands -/

/-- 44_configuration R181: `WRW` writes one wiring entry and nothing else; its word; its errors in their order. -/
def Obligations.WrwWritesWiringEntry : Prop :=
  (∀ (r : BitVec 2) (i v : BitVec 5),
    (encode (.wrw r i v)).toNat = 0x1000 + r.toNat * 0x400 + i.toNat * 0x20 + v.toNat) ∧
  (∀ (s : State) (k : Rotor) (a d : Index), s.phase = .cfg →
    ∃ t, exec (.wrw (rotorSelect k) (indexCode a) (indexCode d)) s = .next t ∧
      t.readTable (.wiring k) a = d ∧ t.mem.isWritten (.wiring k) a = true ∧
      s.sameTables t (fun tab x => tab = .wiring k ∧ x = a) ∧
      t.pos = s.pos ∧ t.ring = s.ring ∧ t.notch = s.notch ∧ s.sameControl t ∧
      t.responses = s.responses ++ [.ack]) ∧
  ∀ (s : State) (r : BitVec 2) (i v : BitVec 5),
    (r = 3#2 → exec (.wrw r i v) s = .next (s.errorAnswered .illegalCommand 1#3)) ∧
    (r ≠ 3#2 → s.phase = .run → exec (.wrw r i v) s = .next (s.errorAnswered .wrongPhase 2#3)) ∧
    (r ≠ 3#2 → s.phase = .cfg → 25 < i.toNat ∨ 25 < v.toNat →
      exec (.wrw r i v) s = .next (s.errorAnswered .invalidSymbol 3#3))

/-- 44_configuration R182: `WRF` writes one reflector entry and nothing else; its word; its errors in their order. -/
def Obligations.WrfWritesReflectorEntry : Prop :=
  (∀ i v : BitVec 5, (encode (.wrf i v)).toNat = 0x2000 + i.toNat * 0x20 + v.toNat) ∧
  (∀ w : Word, opField w = 2#4 → rField w ≠ 0#2 → ∃ e, decode w = .error e) ∧
  (∀ (s : State) (a d : Index), s.phase = .cfg →
    ∃ t, exec (.wrf (indexCode a) (indexCode d)) s = .next t ∧
      t.readTable .reflector a = d ∧ t.mem.isWritten .reflector a = true ∧
      s.sameTables t (fun tab x => tab = .reflector ∧ x = a) ∧
      t.pos = s.pos ∧ t.ring = s.ring ∧ t.notch = s.notch ∧ s.sameControl t ∧
      t.responses = s.responses ++ [.ack]) ∧
  ∀ (s : State) (i v : BitVec 5),
    (s.phase = .run → exec (.wrf i v) s = .next (s.errorAnswered .wrongPhase 2#3)) ∧
    (s.phase = .cfg → 25 < i.toNat ∨ 25 < v.toNat →
      exec (.wrf i v) s = .next (s.errorAnswered .invalidSymbol 3#3))

/-- 44_configuration R183: `PLUG a, b` writes `PB[a] = b` and `PB[b] = a` and nothing else, whatever stood there; its
word; its errors in their order. -/
def Obligations.PlugConnectsPair : Prop :=
  (∀ a b : BitVec 5, (encode (.plug a b)).toNat = 0x3000 + a.toNat * 0x20 + b.toNat) ∧
  (∀ w : Word, opField w = 3#4 → rField w ≠ 0#2 → ∃ e, decode w = .error e) ∧
  (∀ (s : State) (x y : Index), s.phase = .cfg →
    ∃ t, exec (.plug (indexCode x) (indexCode y)) s = .next t ∧
      t.readTable .plugboard x = y ∧ t.readTable .plugboard y = x ∧
      s.sameTables t (fun tab z => tab = .plugboard ∧ (z = x ∨ z = y)) ∧
      t.pos = s.pos ∧ t.ring = s.ring ∧ t.notch = s.notch ∧ s.sameControl t ∧
      t.responses = s.responses ++ [.ack]) ∧
  ∀ (s : State) (a b : BitVec 5),
    (s.phase = .run → exec (.plug a b) s = .next (s.errorAnswered .wrongPhase 2#3)) ∧
    (s.phase = .cfg → 25 < a.toNat ∨ 25 < b.toNat →
      exec (.plug a b) s = .next (s.errorAnswered .invalidSymbol 3#3))

/-- 44_configuration R184: `NOTCH r, n` adds one index to one notch set and changes nothing else; its word; its errors
in their order. -/
def Obligations.NotchAddsIndex : Prop :=
  (∀ (r : BitVec 2) (n : BitVec 5), (encode (.notch r n)).toNat = 0x4000 + r.toNat * 0x400 + n.toNat) ∧
  (∀ w : Word, opField w = 4#4 → rField w = 3#2 ∨ iField w ≠ 0#5 → ∃ e, decode w = .error e) ∧
  (∀ (s : State) (k : Rotor) (n : Index), s.phase = .cfg →
    ∃ t, exec (.notch (rotorSelect k) (indexCode n)) s = .next t ∧
      (∀ x, t.inNotch k x = true ↔ s.inNotch k x = true ∨ x = n) ∧
      (∀ j, j ≠ k → t.notch.get j = s.notch.get j) ∧
      t.pos = s.pos ∧ t.ring = s.ring ∧ t.mem = s.mem ∧ s.sameControl t ∧
      t.responses = s.responses ++ [.ack]) ∧
  ∀ (s : State) (r : BitVec 2) (n : BitVec 5),
    (r = 3#2 → exec (.notch r n) s = .next (s.errorAnswered .illegalCommand 1#3)) ∧
    (r ≠ 3#2 → s.phase = .run → exec (.notch r n) s = .next (s.errorAnswered .wrongPhase 2#3)) ∧
    (r ≠ 3#2 → s.phase = .cfg → 25 < n.toNat →
      exec (.notch r n) s = .next (s.errorAnswered .invalidSymbol 3#3))

/-- 44_configuration R185: `RING r, g` stores `g mod 26` for every `g` in 0..31 and changes nothing else; its word; its
errors in their order. -/
def Obligations.RingStoresResidue : Prop :=
  (∀ (r : BitVec 2) (g : BitVec 5), (encode (.ring r g)).toNat = 0x5000 + r.toNat * 0x400 + g.toNat) ∧
  (∀ w : Word, opField w = 5#4 → rField w = 3#2 ∨ iField w ≠ 0#5 → ∃ e, decode w = .error e) ∧
  (∀ (s : State) (k : Rotor) (g : BitVec 5), s.phase = .cfg →
    ∃ t, exec (.ring (rotorSelect k) g) s = .next t ∧
      (t.ring.get k).val = g.toNat % 26 ∧ (∀ j, j ≠ k → t.ring.get j = s.ring.get j) ∧
      t.pos = s.pos ∧ t.notch = s.notch ∧ t.mem = s.mem ∧ s.sameControl t ∧
      t.responses = s.responses ++ [.ack]) ∧
  ∀ (s : State) (r : BitVec 2) (g : BitVec 5),
    (r = 3#2 → exec (.ring r g) s = .next (s.errorAnswered .illegalCommand 1#3)) ∧
    (r ≠ 3#2 → s.phase = .run → exec (.ring r g) s = .next (s.errorAnswered .wrongPhase 2#3))

/-- 44_configuration R186: `POS r, p` stores `p mod 26` for every `p` in 0..31 and changes nothing else; its word; its
errors in their order. -/
def Obligations.PosStoresResidue : Prop :=
  (∀ (r : BitVec 2) (p : BitVec 5), (encode (.pos r p)).toNat = 0x6000 + r.toNat * 0x400 + p.toNat) ∧
  (∀ w : Word, opField w = 6#4 → rField w = 3#2 ∨ iField w ≠ 0#5 → ∃ e, decode w = .error e) ∧
  (∀ (s : State) (k : Rotor) (p : BitVec 5), s.phase = .cfg →
    ∃ t, exec (.pos (rotorSelect k) p) s = .next t ∧
      (t.pos.get k).val = p.toNat % 26 ∧ (∀ j, j ≠ k → t.pos.get j = s.pos.get j) ∧
      t.ring = s.ring ∧ t.notch = s.notch ∧ t.mem = s.mem ∧ s.sameControl t ∧
      t.responses = s.responses ++ [.ack]) ∧
  ∀ (s : State) (r : BitVec 2) (p : BitVec 5),
    (r = 3#2 → exec (.pos r p) s = .next (s.errorAnswered .illegalCommand 1#3)) ∧
    (r ≠ 3#2 → s.phase = .run → exec (.pos r p) s = .next (s.errorAnswered .wrongPhase 2#3))

/-- 44_configuration R187: `BUILD` writes all of `INV`, the inverse of each `W[k]` that is a permutation, enters the RUN
phase, and changes nothing else, whatever the tables hold; its word; a second `BUILD` is refused. What `INV` holds for a
`W[k]` that is no permutation is left open. -/
def Obligations.BuildComputesInverses : Prop :=
  encode .build = 0x7000#16 ∧
  (∀ w : Word, opField w = 7#4 → w.extractLsb' 0 12 ≠ 0#12 → ∃ e, decode w = .error e) ∧
  (∀ s : State, s.phase = .cfg →
    ∃ t, exec .build s = .next t ∧ t.phase = .run ∧
      (∀ k a, t.mem.isWritten (.inverse k) a = true) ∧
      (∀ k, isPermutation (s.readTable (.wiring k)) →
        ∀ i, t.readTable (.inverse k) (t.readTable (.wiring k) i) = i ∧
          t.readTable (.wiring k) (t.readTable (.inverse k) i) = i) ∧
      s.sameTables t (fun tab _ => ∃ k, tab = .inverse k) ∧
      t.pos = s.pos ∧ t.ring = s.ring ∧ t.notch = s.notch ∧ t.fault = s.fault ∧ t.cause = s.cause ∧
      t.session = s.session ∧ t.inbox = s.inbox ∧ t.responses = s.responses ++ [.ack]) ∧
  ∀ s : State, s.phase = .run → exec .build s = .next (s.errorAnswered .wrongPhase 2#3)

/-! ## The encryption commands -/

/-- 43_pipeline R163: `ENC c`. In RUN a non-letter passes through with no state change, and a letter is answered by its
substitute at the stepped positions, with nothing but the positions changed; in CFG it raises `WRONG_PHASE`. -/
def Obligations.EncAnswers : Prop :=
  (∀ c : Character, (encode (.enc c)).toNat = 0x8000 + c.toNat) ∧
  (∀ (s : State) (c : Character), s.phase = .run → (c.toNat < 0x41 ∨ 0x5A < c.toNat) →
    exec (.enc c) s = .next { s with responses := s.responses ++ [.sym c] }) ∧
  (∀ (s : State) (c : Character) (x : Index), s.phase = .run → c.toNat = 0x41 + x.val →
    ∃ t d, exec (.enc c) s = .next t ∧ t.responses = s.responses ++ [.sym d] ∧
      d.toNat = 0x41 + (transform (stepRotors s) x).val ∧ t.pos = (stepRotors s).pos ∧
      t.ring = s.ring ∧ t.notch = s.notch ∧ t.mem = s.mem ∧ s.sameControl t) ∧
  ∀ (s : State) (c : Character), s.phase = .cfg → exec (.enc c) s = .next (s.errorAnswered .wrongPhase 2#3)

/-- 43_pipeline R164: `ENCT c`. As `ENC`, but a non-letter is answered `ACK`. -/
def Obligations.EnctAnswers : Prop :=
  (∀ c : Character, (encode (.enct c)).toNat = 0x9000 + c.toNat) ∧
  (∀ (s : State) (c : Character), s.phase = .run → (c.toNat < 0x41 ∨ 0x5A < c.toNat) →
    exec (.enct c) s = .next { s with responses := s.responses ++ [.ack] }) ∧
  (∀ (s : State) (c : Character) (x : Index), s.phase = .run → c.toNat = 0x41 + x.val →
    ∃ t d, exec (.enct c) s = .next t ∧ t.responses = s.responses ++ [.sym d] ∧
      d.toNat = 0x41 + (transform (stepRotors s) x).val ∧ t.pos = (stepRotors s).pos ∧
      t.ring = s.ring ∧ t.notch = s.notch ∧ t.mem = s.mem ∧ s.sameControl t) ∧
  ∀ (s : State) (c : Character), s.phase = .cfg → exec (.enct c) s = .next (s.errorAnswered .wrongPhase 2#3)

/-! ## The read commands -/

/-- 44_configuration R188: `RDPOS r` answers the position in either phase and writes nothing; its word; its one
error. -/
def Obligations.RdposReadsPosition : Prop :=
  (∀ r : BitVec 2, (encode (.rdpos r)).toNat = 0xA000 + r.toNat * 0x400) ∧
  (∀ w : Word, opField w = 0xA#4 → rField w = 3#2 ∨ w.extractLsb' 0 10 ≠ 0#10 → ∃ e, decode w = .error e) ∧
  (∀ (s : State) (k : Rotor),
    ∃ x, exec (.rdpos (rotorSelect k)) s = .next { s with responses := s.responses ++ [.val x] } ∧
      (Response.val x).toWord.toNat = 0x2000 + (s.pos.get k).val) ∧
  ∀ s : State, exec (.rdpos 3#2) s = .next (s.errorAnswered .illegalCommand 1#3)

/-- 44_configuration R189: `RDST` answers `CAUSE ++ FAULT ++ PHASE` in either phase and writes nothing; its word; its one
error. -/
def Obligations.RdstReadsStatus : Prop :=
  encode .rdst = 0xB000#16 ∧
  (∀ w : Word, opField w = 0xB#4 → w.extractLsb' 0 12 ≠ 0#12 → ∃ e, decode w = .error e) ∧
  ∀ s : State,
    ∃ x, exec .rdst s = .next { s with responses := s.responses ++ [.val x] } ∧
      (Response.val x).toWord.toNat =
        0x2000 + s.cause.toNat * 4 + (if s.fault = true then 2 else 0) + (if s.phase = .run then 1 else 0)

/-! ## Responses and errors -/

/-- The layout of the response words: kind in bits 15:12, the payload below it, every other bit zero (30_encoding,
section 5; the codes of 60_exceptions, section 2). -/
def Obligations.ResponseWordLayout : Prop :=
  Response.ack.toWord = 0x0000#16 ∧
  (∀ c : Character, (Response.sym c).toWord.toNat = 0x1000 + c.toNat) ∧
  (∀ x : BitVec 5, (Response.val x).toWord.toNat = 0x2000 + x.toNat) ∧
  (∀ e : ErrorKind, (Response.err e).toWord.toNat = 0xF000 + e.code.toNat) ∧
  ErrorKind.illegalCommand.code = 1#3 ∧ ErrorKind.wrongPhase.code = 2#3 ∧ ErrorKind.invalidSymbol.code = 3#3

/-- 60_exceptions R250: in RUN the commands `ENC`, `ENCT`, `RDPOS r` with `r ≠ 3` and `RDST` raise no error, and every
command word in every state is answered, with exactly one response. -/
def Obligations.EveryCommandAnswersOnce : Prop :=
  (∀ (s : State) (w : Word) (rest : List HostEvent), s.inbox = .command w :: rest →
    ∃ t r, step s = .next t ∧ t.responses = s.responses ++ [r] ∧ t.inbox = rest) ∧
  ∀ (s : State) (c : Character) (k : Rotor), s.phase = .run →
    ∀ i ∈ [Instr.enc c, .enct c, .rdpos (rotorSelect k), .rdst],
      ∃ t r, exec i s = .next t ∧ t.responses = s.responses ++ [r] ∧ (∀ e, r ≠ .err e) ∧
        t.fault = s.fault ∧ t.cause = s.cause

/-- 60_exceptions R236: a command word answered with `ERR` changes nothing but `STATUS`, where `FAULT` becomes 1 and
`CAUSE` the error's code if `FAULT` was 0. -/
def Obligations.ErrorsChangeOnlyStatus : Prop :=
  ∀ (s t : State) (w : Word) (rest : List HostEvent) (e : ErrorKind), s.inbox = .command w :: rest →
    step s = .next t → t.responses = s.responses ++ [.err e] →
      t = (s.setInbox rest).errorAnswered e e.code

/-- 60_exceptions R237: encoding, phase, field values are checked in that order and the first check that fails decides
the one error, for a word that spells no command as for a command whatever its operands. -/
def Obligations.FirstFailedCheckDecides : Prop :=
  (∀ (s : State) (i : Instr), ∃ t r, exec i s = .next t ∧ t.responses = s.responses ++ [r] ∧
    ∀ e, r = .err e ↔ firstFailedCheck i s.phase = some e) ∧
  ∀ (s : State) (w : Word) (rest : List HostEvent), s.inbox = .command w :: rest →
    (∀ i, decode w ≠ .ok i) →
      step s = .next ((s.setInbox rest).errorAnswered .illegalCommand 1#3)

/-- 60_exceptions R233: which commands each phase refuses with `WRONG_PHASE`, response word 0xF002, and that `RDPOS` and
`RDST` never raise it. -/
def Obligations.WrongPhaseRefused : Prop :=
  (∀ (s : State) (i : Instr), i.wellFormed = true →
    ((∃ t, exec i s = .next t ∧ t.responses = s.responses ++ [.err .wrongPhase]) ↔
      match i with
      | .enc _ => s.phase = .cfg
      | .enct _ => s.phase = .cfg
      | .rdpos _ => False
      | .rdst => False
      | _ => s.phase = .run)) ∧
  (Response.err .wrongPhase).toWord = 0xF002#16

/-- 60_exceptions R234: which commands refuse a field above 25 with `INVALID_SYMBOL`, response word 0xF003, writing
nothing; no other command raises it. -/
def Obligations.InvalidSymbolRefused : Prop :=
  (∀ (s : State) (i : Instr), i.wellFormed = true → s.phase = .cfg →
    ((∃ t, exec i s = .next t ∧ t.responses = s.responses ++ [.err .invalidSymbol]) ↔
      match i with
      | .wrw _ i v => 25 < i.toNat ∨ 25 < v.toNat
      | .wrf i v => 25 < i.toNat ∨ 25 < v.toNat
      | .plug a b => 25 < a.toNat ∨ 25 < b.toNat
      | .notch _ n => 25 < n.toNat
      | _ => False)) ∧
  (∀ (s t : State) (i : Instr), exec i s = .next t → t.responses = s.responses ++ [.err .invalidSymbol] →
    t.mem = s.mem ∧ t.pos = s.pos ∧ t.ring = s.ring ∧ t.notch = s.notch ∧ t.phase = s.phase) ∧
  (∀ (s t : State) (i : Instr), s.phase = .run → exec i s = .next t →
    t.responses ≠ s.responses ++ [.err .invalidSymbol]) ∧
  (Response.err .invalidSymbol).toWord = 0xF003#16

/-- 60_exceptions R241: `FAULT` is 0 after reset, set by every `ERR` and cleared by no command; `CAUSE` is the first
error's code; and no command but `RDST` behaves differently for what the two hold. -/
def Obligations.FaultRecordIsSticky : Prop :=
  (∀ s : State, State.reset.fault = false ∧ s.hostReset.fault = false) ∧
  (∀ (s t : State) (w : Word) (rest : List HostEvent) (r : Response), s.inbox = .command w :: rest →
    step s = .next t → t.responses = s.responses ++ [r] →
      (s.fault = true → t.fault = true ∧ t.cause = s.cause) ∧
      (s.fault = false → ∀ e, r = .err e → t.fault = true ∧ t.cause = e.code) ∧
      ((∀ e, r ≠ .err e) → t.fault = s.fault ∧ t.cause = s.cause)) ∧
  ∀ (s t : State) (f : Bool) (c : BitVec 3) (i : Instr), i ≠ .rdst → exec i s = .next t →
    ∃ f' c', exec i { s with fault := f, cause := c } = .next { t with fault := f', cause := c' }

/-- No command word is ever answered with the error named for a malformed configuration (60_exceptions, section 2). -/
def Obligations.MalformedConfigurationNeverRaised : Prop :=
  ∀ (s t : State) (w : Word) (rest : List HostEvent), s.inbox = .command w :: rest → step s = .next t →
    t.responses ≠ s.responses ++ [.err .malformedConfiguration]

/-! ## Phases -/

/-- Only `BUILD` enters the RUN phase and only a reset leaves it (10_state, section 4; 60_exceptions, section 5). -/
def Obligations.PhaseChangesOnlyByBuildOrReset : Prop :=
  ∀ s t : State, step s = .next t → t.phase ≠ s.phase →
    (s.phase = .cfg ∧ t.phase = .run ∧ ∃ rest, s.inbox = .command 0x7000#16 :: rest) ∨
    (s.phase = .run ∧ t.phase = .cfg ∧ ∃ rest, s.inbox = .reset :: rest)

/-- 10_state R42: in the RUN phase a command can change only the positions, by a letter given to `ENC` or `ENCT`, and
`FAULT` and `CAUSE`, by an error. -/
def Obligations.RunPhaseFreezesConfiguration : Prop :=
  ∀ (s t : State) (w : Word) (rest : List HostEvent), s.phase = .run → s.inbox = .command w :: rest →
    step s = .next t →
      t.ring = s.ring ∧ t.notch = s.notch ∧ t.mem = s.mem ∧ t.phase = .run ∧ t.session = s.session ∧
      (t.pos ≠ s.pos → ∃ i, decode w = .ok i ∧ isLetterCommand i = true) ∧
      (t.fault ≠ s.fault ∨ t.cause ≠ s.cause → ∃ e, t.responses = s.responses ++ [.err e])

/-! ## Stepping -/

/-- 42_stepping R142, R145, R146: `STEP` as the table of the two notch conditions before the step, each rotor moving at
most once, and nothing else changed. -/
def Obligations.StepTransitionTable : Prop :=
  ∀ s : State,
    let a := s.inNotch .middle s.pos.middle
    let b := s.inNotch .right s.pos.right
    stepRotors s = { s with pos := (stepRotors s).pos } ∧
    (stepRotors s).pos.left.val = (s.pos.left.val + if a then 1 else 0) % 26 ∧
    (stepRotors s).pos.middle.val = (s.pos.middle.val + if a || b then 1 else 0) % 26 ∧
    (stepRotors s).pos.right.val = (s.pos.right.val + 1) % 26

/-- 42_stepping R144: what `STEP` does not read. Two states alike in the middle and right positions and notch sets take
the same decisions, whatever else differs. -/
def Obligations.StepReadsOnlyPositionsAndNotches : Prop :=
  ∀ s t : State, t.pos.middle = s.pos.middle → t.pos.right = s.pos.right → t.notch.middle = s.notch.middle →
    t.notch.right = s.notch.right →
      (stepRotors t).pos.middle = (stepRotors s).pos.middle ∧ (stepRotors t).pos.right = (stepRotors s).pos.right ∧
      (stepRotors t).pos.left - t.pos.left = (stepRotors s).pos.left - s.pos.left

/-- 42_stepping R149: with empty notch sets on middle and right only the right rotor moves; with full ones all three
move on every step. -/
def Obligations.StepWithEmptyOrFullNotches : Prop :=
  (∀ s : State, (∀ x, s.inNotch .middle x = false) → (∀ x, s.inNotch .right x = false) →
    (stepRotors s).pos = ⟨s.pos.left, s.pos.middle, s.pos.right + 1⟩) ∧
  ∀ s : State, (∀ x, s.inNotch .middle x = true) → (∀ x, s.inNotch .right x = true) →
    (stepRotors s).pos = ⟨s.pos.left + 1, s.pos.middle + 1, s.pos.right + 1⟩

/-- `n` steps leave the right rotor `n` places on, so every 26 steps it is back where it was (42_stepping, the transition STEP). -/
def Obligations.RightRotorCountsSteps : Prop :=
  ∀ (n : Nat) (s : State), (stepRotors^[n] s).pos.right.val = (s.pos.right.val + n) % 26

/-- 45_properties R214: the double step over two letters. -/
def Obligations.DoubleStepOverTwoLetters : Prop :=
  ∀ (s : State) (n : Index) (i j : Instr), s.phase = .run → isLetterCommand i = true → isLetterCommand j = true →
    s.inNotch .middle n = true → s.pos.middle = n - 1 → s.inNotch .right s.pos.right = true →
    s.inNotch .middle (n - 1) = false → s.inNotch .right (s.pos.right + 1) = false →
      ∃ t u, exec i s = .next t ∧ t.pos = ⟨s.pos.left, n, s.pos.right + 1⟩ ∧
        exec j t = .next u ∧ u.pos = ⟨s.pos.left + 1, n + 1, s.pos.right + 2⟩

/-! ## One rotor -/

/-- 41_rotor R121, R122: the formulas of `FWD` and `BWD` on integers, reduced modulo 26. -/
def Obligations.RotorRoutingFormulas : Prop :=
  ∀ (s : State) (k : Rotor) (x contact : Index),
    ((contact.val : Int) = ((x.val : Int) + (s.pos.get k).val - (s.ring.get k).val) % 26) →
      (((fwd s k x).val : Int) =
        (((s.readTable (.wiring k) contact).val : Int) - (s.pos.get k).val + (s.ring.get k).val) % 26) ∧
      ((bwd s k x).val : Int) =
        (((s.readTable (.inverse k) contact).val : Int) - (s.pos.get k).val + (s.ring.get k).val) % 26

/-- 41_rotor R125: with `W[k]` a permutation and `INV[k]` its inverse, `FWD` and `BWD` are permutations and inverses of
each other at every position and ring setting. -/
def Obligations.ForwardBackwardInverse : Prop :=
  ∀ (s : State) (k : Rotor), isPermutation (s.readTable (.wiring k)) →
    (∀ i, s.readTable (.inverse k) (s.readTable (.wiring k) i) = i) →
      Function.Bijective (fwd s k) ∧ Function.Bijective (bwd s k) ∧
      ∀ x, bwd s k (fwd s k x) = x ∧ fwd s k (bwd s k x) = x

/-- 41_rotor R126: routing depends on position and ring through their difference modulo 26 only; the notch query and the
stepping never depend on a ring. -/
def Obligations.RoutingDependsOnOffset : Prop :=
  (∀ (s t : State) (k : Rotor), (∀ a, t.readTable (.wiring k) a = s.readTable (.wiring k) a) →
    (∀ a, t.readTable (.inverse k) a = s.readTable (.inverse k) a) →
    t.pos.get k - t.ring.get k = s.pos.get k - s.ring.get k →
      ∀ x, fwd t k x = fwd s k x ∧ bwd t k x = bwd s k x) ∧
  ∀ (s : State) (k : Rotor) (g : PerRotor Index),
    atNotch k { s with ring := g } = atNotch k s ∧ (stepRotors { s with ring := g }).pos = (stepRotors s).pos

/-- 41_rotor R123: `ADV` adds 1 modulo 26 to one position and changes nothing else, and 26 of them restore it. -/
def Obligations.AdvanceWraps : Prop :=
  ∀ (s : State) (k : Rotor),
    ((adv k s).pos.get k).val = ((s.pos.get k).val + 1) % 26 ∧
    (∀ j, j ≠ k → (adv k s).pos.get j = s.pos.get j) ∧ adv k s = { s with pos := (adv k s).pos } ∧
    (adv k)^[26] s = s

/-! ## Codec -/

/-- 40_codec R101, R103: which characters are letters, and the letter of any integer. -/
def Obligations.CodecValues : Prop :=
  (∀ c : Character, isLetter c = true ↔ 0x41 ≤ c.toNat ∧ c.toNat ≤ 0x5A) ∧
  ∀ n : Int, ((i2l n).toNat : Int) = 0x41 + n % 26 ∧ isLetter (i2l n) = true

/-- `L2I` gives exactly a letter its index, and exactly a non-letter none (40_codec, section 2). That it
answers none where the section raises an error no command reaches is the model's choice, log 14. -/
def Obligations.LetterToIndexValues : Prop :=
  ∀ c : Character, (∀ x : Index, l2i c = some x ↔ c.toNat = 0x41 + x.val) ∧ (l2i c = none ↔ isLetter c = false)

/-- 40_codec R108: the round trips of the codec. -/
def Obligations.CodecRoundTrip : Prop :=
  (∀ c : Character, isLetter c = true → ∃ i : Index, l2i c = some i ∧ i2l i.val = c) ∧
  (∀ i : Index, l2i (i2l i.val) = some i) ∧
  ∀ n : Int, ∃ j : Index, l2i (i2l n) = some j ∧ (j.val : Int) = n % 26

/-! ## Pipeline -/

/-- 43_pipeline R160, R161, R162: `PLUGMAP` and `REFL` read one entry of `PB` and `REF`; `TRANSFORM` is the nine look-ups
in their order; and in RUN `ENC` and `ENCT` answer a letter with the letter of `t8`, at the positions after the step. -/
def Obligations.LetterTakesNineLookups : Prop :=
  (∀ (s : State) (x : Index), plugMap s x = s.readTable .plugboard x ∧ reflMap s x = s.readTable .reflector x) ∧
  (∀ (s : State) (x : Index), ∃ ts, s.letterPath x ts) ∧
  (∀ (s : State) (x : Index) (ts : Vector Index 9), s.letterPath x ts → transform s x = ts[8]) ∧
  ∀ (s : State) (c : Character) (x : Index) (ts : Vector Index 9), s.phase = .run → c.toNat = 0x41 + x.val →
    (stepRotors s).letterPath x ts → ∀ i ∈ [Instr.enc c, .enct c],
      ∃ t d, exec i s = .next t ∧ t.responses = s.responses ++ [.sym d] ∧ d.toNat = 0x41 + ts[8].val

/-- 45_properties R212: with a well-formed configuration, built, `TRANSFORM` is an involution without fixed points at
every position triple. The premise `inverseBuilt` is part of the invariant every step keeps. -/
def Obligations.TransformIsInvolution : Prop :=
  ∀ (s : State) (p : PerRotor Index), s.phase = .run → s.inverseBuilt → s.WF →
    ∀ x, transform { s with pos := p } (transform { s with pos := p } x) = x ∧ transform { s with pos := p } x ≠ x

/-- 45_properties R213: with a well-formed configuration, built, a letter is answered by another letter, and a non-letter
given to `ENC` by itself. -/
def Obligations.LetterNeverEncryptsToItself : Prop :=
  ∀ (s : State) (c : Character), s.phase = .run → s.inverseBuilt → s.WF →
    (isLetter c = true → ∀ i ∈ [Instr.enc c, .enct c],
      ∃ t d, exec i s = .next t ∧ t.responses = s.responses ++ [.sym d] ∧ isLetter d = true ∧ d ≠ c) ∧
    (isLetter c = false → ∃ t, exec (.enc c) s = .next t ∧ t.responses = s.responses ++ [.sym c])

/-- Texts are reciprocal: a second machine with the same configuration and positions, of any session, given the first
one's output text gives the first one's input back and ends at the same positions; by `ENCT` without its non-letters, by
`ENC` exactly (45_properties, reciprocity of texts). -/
def Obligations.TextReciprocity : Prop :=
  ∀ (s u : State), s.phase = .run → s.inverseBuilt → s.WF →
    u.phase = .run → u.pos = s.pos → u.ring = s.ring → u.notch = s.notch → u.mem = s.mem →
    ∀ cs : List Character,
      (∃ (t v : State) (ds : List Character), execAll (cs.map .enc) s = .next t ∧ t.responses = s.responses ++ ds.map .sym ∧
        execAll (ds.map .enc) u = .next v ∧ v.responses = u.responses ++ cs.map .sym ∧ t.pos = v.pos) ∧
      ∃ (t v : State) (rs qs : List Response), execAll (pseudoText cs) s = .next t ∧ t.responses = s.responses ++ rs ∧
        execAll (pseudoText (outputText rs)) u = .next v ∧ v.responses = u.responses ++ qs ∧
        outputText qs = cs.filter isLetter ∧ t.pos = v.pos

/-- 43_pipeline R167: `ENCT c` leaves the state `ENC c` leaves, with the response `SYM(c)` of a non-letter replaced by
`ACK`; over a text, the output is that of `ENC` without the elements that were non-letters on input. -/
def Obligations.EnctMatchesEnc : Prop :=
  (∀ (s t : State) (c : Character), exec (.enc c) s = .next t →
    (isLetter c = true ∨ s.phase = .cfg → exec (.enct c) s = .next t) ∧
    (isLetter c = false → s.phase = .run →
      t.responses = s.responses ++ [.sym c] ∧
      exec (.enct c) s = .next { t with responses := s.responses ++ [.ack] })) ∧
  ∀ (s : State) (cs : List Character), s.phase = .run →
    ∃ (t v : State) (ds : List Character) (rs : List Response), execAll (cs.map .enc) s = .next t ∧ t.responses = s.responses ++ ds.map .sym ∧
      ds.length = cs.length ∧ execAll (pseudoText cs) s = .next v ∧ v.responses = s.responses ++ rs ∧
      outputText rs = ((cs.zip ds).filter fun e => isLetter e.1).map Prod.snd ∧
      v = { t with responses := s.responses ++ rs }

/-- A text sent with `ENCT` gives one output character for each of its letters, all of them letters (43_pipeline, the
output text). -/
def Obligations.OutputTextHasOneLetterPerLetter : Prop :=
  ∀ (s : State) (cs : List Character), s.phase = .run →
    ∃ (t : State) (rs : List Response), execAll (pseudoText cs) s = .next t ∧ t.responses = s.responses ++ rs ∧
      (outputText rs).length = (cs.filter isLetter).length ∧ (∀ d ∈ outputText rs, isLetter d = true) ∧
      rs.length = cs.length

/-- 45_properties R215: the digit passes through `ENC` with no state change, and the text "AB3C" by `ENCT` gives exactly
three letters and steps exactly three times. -/
def Obligations.NonLetterAsymmetry : Prop :=
  ∀ s : State, s.phase = .run →
    exec (.enc 0x33#8) s = .next { s with responses := s.responses ++ [.sym 0x33#8] } ∧
    ∃ (t : State) (rs : List Response), execAll (pseudoText [0x41#8, 0x42#8, 0x33#8, 0x43#8]) s = .next t ∧
      t.responses = s.responses ++ rs ∧ (outputText rs).length = 3 ∧ (∀ d ∈ outputText rs, isLetter d = true) ∧
      t.pos = (stepRotors^[3] s).pos

/-- 45_properties R218: in RUN every `ENC` and `ENCT`, for every character and every state, gives exactly one response
and no error, and a letter is answered by a letter, whatever the tables hold. -/
def Obligations.RunPhaseTotal : Prop :=
  ∀ (s : State) (c : Character), s.phase = .run → ∀ i ∈ [Instr.enc c, .enct c],
    ∃ t r, exec i s = .next t ∧ t.responses = s.responses ++ [r] ∧ (∀ e, r ≠ .err e) ∧
      (isLetter c = true → ∃ d, r = .sym d ∧ isLetter d = true)

/-- 45_properties R217: if no letter stands in more than one `PLUG` command of the CFG phase, the plugboard is an
involution, whatever the other commands are, a `PLUG` after `BUILD` among them. -/
def Obligations.PlugboardInvolution : Prop :=
  ∀ (s t : State) (is : List Instr), (s = State.reset ∨ ∃ u : State, s = u.hostReset) → plugsDisjoint is →
    execAll is s = .next t → ∀ x, plugMap t (plugMap t x) = x

/-! ## Sessions -/

/-- Where every entry of `W` and `REF` is written and each `W[k]` is a permutation, no command's effect depends on the
free values: two states alike but for the session are answered alike and stay alike (45_properties, determinism;
the session number is the model's, log 3). -/
def Obligations.WrittenTablesDetermineTheRun : Prop :=
  ∀ (s : State) (n : Nat) (i : Instr) (t : State), s.inverseBuilt → (∀ k, s.WFW k) →
    (∀ a, s.mem.isWritten .reflector a = true) → exec i s = .next t →
      exec i { s with session := n } = .next { t with session := n }

/-- 44_configuration R194: the commands a configuration maps onto. With 26-entry tables they are exactly the `WRW` and
`WRF` of the table entries, one `NOTCH` per notch letter, one `RING` and one `POS` per rotor whose value is not 0, and
one `PLUG` per pair; the count says that none is sent twice. -/
def Obligations.ConfigurationMapsToCommands : Prop :=
  ∀ c : Configuration, (∀ k, (c.wiring.get k).length = 26) → c.reflector.length = 26 →
    (∀ i, i ∈ c.commands ↔
      (∃ (k : Rotor) (a d : Index), (c.wiring.get k)[a.val]? = some d ∧
        i = .wrw (rotorSelect k) (indexCode a) (indexCode d)) ∨
      (∃ a d : Index, c.reflector[a.val]? = some d ∧ i = .wrf (indexCode a) (indexCode d)) ∨
      (∃ (k : Rotor) (n : Index), n ∈ c.notch.get k ∧ i = .notch (rotorSelect k) (indexCode n)) ∨
      (∃ k : Rotor, c.ring.get k ≠ 0 ∧ i = .ring (rotorSelect k) (indexCode (c.ring.get k))) ∨
      (∃ k : Rotor, c.start.get k ≠ 0 ∧ i = .pos (rotorSelect k) (indexCode (c.start.get k))) ∨
      ∃ p ∈ c.plugs, i = .plug (indexCode p.1) (indexCode p.2)) ∧
    c.commands.length = 78 + 26 +
      (c.notch.left.length + c.notch.middle.length + c.notch.right.length) +
      ([Rotor.left, .middle, .right].countP fun k => c.ring.get k != 0) +
      ([Rotor.left, .middle, .right].countP fun k => c.start.get k != 0) + c.plugs.length

/-- Loading a configuration after reset leaves exactly that configuration in the block, with no error, still in the CFG
phase (44_configuration, section 1; 70_reset, section 2). -/
def Obligations.LoadedConfiguration : Prop :=
  ∀ (c : Configuration) (s : State), (s = State.reset ∨ ∃ u : State, s = u.hostReset) →
    (∀ k, (c.wiring.get k).length = 26) → c.reflector.length = 26 →
      ∃ t, execAll c.commands s = .next t ∧ t.phase = .cfg ∧ t.fault = false ∧ t.cause = 0#3 ∧
        (∀ k (a : Index), (c.wiring.get k)[a.val]? = some (t.readTable (.wiring k) a)) ∧
        (∀ a : Index, c.reflector[a.val]? = some (t.readTable .reflector a)) ∧
        (∀ k x, t.inNotch k x = true ↔ x ∈ c.notch.get k) ∧ t.ring = c.ring ∧ t.pos = c.start ∧
        (c.plugs.Pairwise (fun p q => p.1 ≠ q.1 ∧ p.1 ≠ q.2 ∧ p.2 ≠ q.1 ∧ p.2 ≠ q.2) →
          (∀ p ∈ c.plugs, t.readTable .plugboard p.1 = p.2 ∧ t.readTable .plugboard p.2 = p.1) ∧
          ∀ x, (∀ p ∈ c.plugs, x ≠ p.1 ∧ x ≠ p.2) → t.readTable .plugboard x = x)

/-! ## The assembler notation -/

/-- The pseudo-instructions expand as the table says, for every text of the form each takes: 26 letters, any letters,
three letters, letter pairs, characters. For a text of any other form, a line stands for what the reader of that form
makes of the text (30_encoding, section 6; how the line's blanks and quotes are read, so that no text holds a double
quote, is the model's choice, log 15). -/
def Obligations.PseudoInstructionLines : Prop :=
  (∀ cs : List Char, '"' ∉ cs → (∀ c ∈ cs, c.toNat < 256) →
    assembleLine (['T', 'E', 'X', 'T', ' ', '"'] ++ cs ++ ['"']) =
      some (cs.map fun c => .enct (BitVec.ofNat 8 c.toNat))) ∧
  (∀ ps : List (Index × Index),
    assembleLine (['P', 'L', 'U', 'G', 'S', ' ', '"'] ++ pairsText ps ++ ['"']) =
      some (ps.map fun p => .plug (BitVec.ofNat 5 p.1.val) (BitVec.ofNat 5 p.2.val))) ∧
  (∀ x y z : Index,
    assembleLine ['R', 'I', 'N', 'G', 'S', ' ', '"', letterChar x, letterChar y, letterChar z, '"'] =
      some [.ring 0#2 (BitVec.ofNat 5 x.val), .ring 1#2 (BitVec.ofNat 5 y.val), .ring 2#2 (BitVec.ofNat 5 z.val)] ∧
    assembleLine ['S', 'T', 'A', 'R', 'T', ' ', '"', letterChar x, letterChar y, letterChar z, '"'] =
      some [.pos 0#2 (BitVec.ofNat 5 x.val), .pos 1#2 (BitVec.ofNat 5 y.val), .pos 2#2 (BitVec.ofNat 5 z.val)]) ∧
  (∀ xs : List Index, xs.length = 26 →
    assembleLine (['R', 'E', 'F', 'L', 'E', 'C', 'T', 'O', 'R', ' ', '"'] ++ xs.map letterChar ++ ['"']) =
      some (((List.range 26).zip xs).map fun e => .wrf (BitVec.ofNat 5 e.1) (BitVec.ofNat 5 e.2.val))) ∧
  (∀ e ∈ [('L', 0#2), ('M', 1#2), ('R', 2#2)], ∀ xs : List Index,
    (xs.length = 26 →
      assembleLine (['R', 'O', 'T', 'O', 'R', ' ', e.1, ',', ' ', '"'] ++ xs.map letterChar ++ ['"']) =
        some (((List.range 26).zip xs).map fun a => .wrw e.2 (BitVec.ofNat 5 a.1) (BitVec.ofNat 5 a.2.val))) ∧
    assembleLine (['N', 'O', 'T', 'C', 'H', 'E', 'S', ' ', e.1, ',', ' ', '"'] ++ xs.map letterChar ++ ['"']) =
      some (xs.map fun x => .notch e.2 (BitVec.ofNat 5 x.val))) ∧
  ∀ s : List Char, '"' ∉ s →
    assembleLine (['T', 'E', 'X', 'T', ' ', '"'] ++ s ++ ['"']) = (s.mapM characterOf).map pseudoText ∧
    assembleLine (['P', 'L', 'U', 'G', 'S', ' ', '"'] ++ s ++ ['"']) = (letterPairs s).map pseudoPlugs ∧
    assembleLine (['R', 'I', 'N', 'G', 'S', ' ', '"'] ++ s ++ ['"']) = (threeLetters s).map pseudoRings ∧
    assembleLine (['S', 'T', 'A', 'R', 'T', ' ', '"'] ++ s ++ ['"']) = (threeLetters s).map pseudoStart ∧
    assembleLine (['R', 'E', 'F', 'L', 'E', 'C', 'T', 'O', 'R', ' ', '"'] ++ s ++ ['"']) =
      (tableLetters s).map pseudoReflector ∧
    ∀ e ∈ [('L', Rotor.left), ('M', .middle), ('R', .right)],
      assembleLine (['R', 'O', 'T', 'O', 'R', ' ', e.1, ',', ' ', '"'] ++ s ++ ['"']) =
        (tableLetters s).map (pseudoRotor e.2) ∧
      assembleLine (['N', 'O', 'T', 'C', 'H', 'E', 'S', ' ', e.1, ',', ' ', '"'] ++ s ++ ['"']) =
        (s.mapM letterOf).map (pseudoNotches e.2)
end

