-- ==== Sys2Proof/Laws/Arith.lean ====
section
/-! SUPPORT. The laws of the residues modulo 26 (40_codec R105) and of the codec. -/

namespace Sys2Proof.Machine

/-- The residue as an integer: `mod26` is the Euclidean remainder. -/
@[simp] theorem mod26_val (n : Int) : ((mod26 n).val : Int) = n % 26 := by
  simp only [mod26]
  omega

/-- Two integers have the same residue exactly when they differ by a multiple of 26. -/
theorem mod26_eq_iff (m n : Int) : mod26 m = mod26 n ↔ m % 26 = n % 26 := by
  rw [← mod26_val m, ← mod26_val n]
  constructor
  · intro h; rw [h]
  · intro h; exact Fin.ext (by exact_mod_cast h)

/-- `a mod 26 = a` when `a` is an index. -/
@[simp] theorem mod26_index (x : Index) : mod26 (x.val : Int) = x := by
  apply Fin.ext
  have h := mod26_val (x.val : Int)
  have hx := x.isLt
  omega

/-- An index is the residue of an integer when the integer reduces to it. -/
theorem mod26_eq_index (n : Int) (x : Index) : mod26 n = x ↔ n % 26 = (x.val : Int) := by
  conv_lhs => rw [← mod26_index x]
  rw [mod26_eq_iff]
  have hx := x.isLt
  omega

theorem mod26_add_mod26 (m n : Int) : mod26 ((mod26 m).val + n) = mod26 (m + n) := by
  rw [mod26_eq_iff, mod26_val]
  omega

/-- The residue of a sum and difference of indices is their sum and difference as residues. -/
theorem mod26_add_sub (a b c : Index) : mod26 (a.val + b.val - c.val) = a + b - c := by
  rw [mod26_eq_index]
  have ha := a.isLt
  have hb := b.isLt
  have hc := c.isLt
  simp only [Fin.val_add, Fin.val_sub]
  omega

theorem mod26_sub_add (a b c : Index) : mod26 (a.val - b.val + c.val) = a - b + c := by
  rw [mod26_eq_index]
  have ha := a.isLt
  have hb := b.isLt
  have hc := c.isLt
  simp only [Fin.val_add, Fin.val_sub]
  omega

theorem mod26_succ (a : Index) : mod26 (a.val + 1) = a + 1 := by
  rw [mod26_eq_index]
  simp [Fin.val_add]

/-- The way through a rotor in the arithmetic of residues. -/
theorem routeThrough_eq (s : State) (k : Rotor) (tab : TableId) (x : Index) :
    routeThrough s k tab x =
      s.readTable tab (x + s.pos.get k - s.ring.get k) - s.pos.get k + s.ring.get k := by
  simp only [routeThrough, mod26_add_sub, mod26_sub_add]

/-- The residues are spelled by the 5-bit codes 0..25, and the code gives the index back. -/
theorem indexOfField_indexCode (x : Index) : indexOfField (indexCode x) = some x := by
  have hx := x.isLt
  have hv : (indexCode x).toNat = x.val := by
    simp only [indexCode, BitVec.toNat_ofNat]
    omega
  simp [indexOfField, hv]

theorem rotorOfSelect_rotorSelect (k : Rotor) : rotorOfSelect (rotorSelect k) = some k := by
  cases k <;> rfl

theorem isLetter_iff (c : Character) : isLetter c = true ↔ 0x41 ≤ c.toNat ∧ c.toNat ≤ 0x5A := by
  simp [isLetter]

theorem l2i_of_letter {c : Character} (h : isLetter c = true) : l2i c = some (mod26 (c.toNat - 0x41)) := by
  simp [l2i, h]

theorem l2i_of_nonletter {c : Character} (h : isLetter c = false) : l2i c = none := by
  simp [l2i, h]

/-- The code of a residue's letter. -/
theorem i2l_toNat (n : Int) : (i2l n).toNat = 0x41 + (mod26 n).val := by
  have h := (mod26 n).isLt
  simp only [i2l, BitVec.toNat_ofNat]
  omega

end Sys2Proof.Machine
end

