-- ==== Sys2Proof/Laws/Encoding.lean ====
section
/-! SUPPORT. The fields of the words the encoder writes. -/

namespace Sys2Proof

theorem opField_wordW (op : BitVec 4) (r : BitVec 2) (i v : BitVec 5) : opField (wordW op r i v) = op := by
  apply BitVec.eq_of_getLsbD_eq
  intro n hn
  simp only [opField, wordW, BitVec.getLsbD_extractLsb', BitVec.getLsbD_append]
  interval_cases n <;> simp

theorem rField_wordW (op : BitVec 4) (r : BitVec 2) (i v : BitVec 5) : rField (wordW op r i v) = r := by
  apply BitVec.eq_of_getLsbD_eq
  intro n hn
  simp only [rField, wordW, BitVec.getLsbD_extractLsb', BitVec.getLsbD_append]
  interval_cases n <;> simp

theorem iField_wordW (op : BitVec 4) (r : BitVec 2) (i v : BitVec 5) : iField (wordW op r i v) = i := by
  apply BitVec.eq_of_getLsbD_eq
  intro n hn
  simp only [iField, wordW, BitVec.getLsbD_extractLsb', BitVec.getLsbD_append]
  interval_cases n <;> simp

theorem vField_wordW (op : BitVec 4) (r : BitVec 2) (i v : BitVec 5) : vField (wordW op r i v) = v := by
  apply BitVec.eq_of_getLsbD_eq
  intro n hn
  simp only [vField, wordW, BitVec.getLsbD_extractLsb', BitVec.getLsbD_append]
  interval_cases n <;> simp

theorem low10_wordW (op : BitVec 4) (r : BitVec 2) (i v : BitVec 5) :
    (wordW op r i v).extractLsb' 0 10 = i ++ v := by
  apply BitVec.eq_of_getLsbD_eq
  intro n hn
  simp only [wordW, BitVec.getLsbD_extractLsb', BitVec.getLsbD_append]
  interval_cases n <;> simp

theorem low12_wordW (op : BitVec 4) (r : BitVec 2) (i v : BitVec 5) :
    (wordW op r i v).extractLsb' 0 12 = r ++ i ++ v := by
  apply BitVec.eq_of_getLsbD_eq
  intro n hn
  simp only [wordW, BitVec.getLsbD_extractLsb', BitVec.getLsbD_append]
  interval_cases n <;> simp

theorem opField_wordC (op : BitVec 4) (c : Character) : opField (wordC op c) = op := by
  apply BitVec.eq_of_getLsbD_eq
  intro n hn
  simp only [opField, wordC, BitVec.getLsbD_extractLsb', BitVec.getLsbD_append]
  interval_cases n <;> simp

theorem cField_wordC (op : BitVec 4) (c : Character) : cField (wordC op c) = c := by
  apply BitVec.eq_of_getLsbD_eq
  intro n hn
  simp only [cField, wordC, BitVec.getLsbD_extractLsb', BitVec.getLsbD_append]
  interval_cases n <;> simp

theorem zeros_wordC (op : BitVec 4) (c : Character) : (wordC op c).extractLsb' 8 4 = 0#4 := by
  apply BitVec.eq_of_getLsbD_eq
  intro n hn
  simp only [wordC, BitVec.getLsbD_extractLsb', BitVec.getLsbD_append]
  interval_cases n <;> simp

/-- The number a format W word is: each field at its place. -/
theorem toNat_wordW (op : BitVec 4) (r : BitVec 2) (i v : BitVec 5) :
    (wordW op r i v).toNat = op.toNat * 0x1000 + r.toNat * 0x400 + i.toNat * 0x20 + v.toNat := by
  have hr := r.isLt
  have hi := i.isLt
  have hv := v.isLt
  simp only [wordW, BitVec.toNat_append]
  rw [← Nat.shiftLeft_add_eq_or_of_lt (by omega), ← Nat.shiftLeft_add_eq_or_of_lt (by omega),
    ← Nat.shiftLeft_add_eq_or_of_lt (by omega)]
  simp only [Nat.shiftLeft_eq]
  omega

/-- The number a format C word is. -/
theorem toNat_wordC (op : BitVec 4) (c : Character) : (wordC op c).toNat = op.toNat * 0x1000 + c.toNat := by
  have hc : c.toNat < 256 := c.isLt
  simp only [wordC, BitVec.toNat_append]
  rw [← Nat.shiftLeft_add_eq_or_of_lt (by simpa using hc), ← Nat.shiftLeft_add_eq_or_of_lt (by omega)]
  simp only [Nat.shiftLeft_eq, BitVec.toNat_ofNat]
  omega

/-- A word is the format W word of its own fields. -/
theorem wordW_fields (w : Word) : wordW (opField w) (rField w) (iField w) (vField w) = w := by
  apply BitVec.eq_of_getLsbD_eq
  intro n hn
  simp only [wordW, opField, rField, iField, vField, BitVec.getLsbD_append, BitVec.getLsbD_extractLsb']
  interval_cases n <;> simp

/-- Zero low bits leave the fields in them zero. -/
theorem fields_of_low10 {w : Word} (h : w.extractLsb' 0 10 = 0#10) : iField w = 0#5 ∧ vField w = 0#5 := by
  have hlow := low10_wordW (opField w) (rField w) (iField w) (vField w)
  rw [wordW_fields, h] at hlow
  have hn := congrArg BitVec.toNat hlow
  have hi := (iField w).isLt
  have hv := (vField w).isLt
  rw [BitVec.toNat_append, ← Nat.shiftLeft_add_eq_or_of_lt (by omega), Nat.shiftLeft_eq] at hn
  simp only [BitVec.toNat_ofNat] at hn
  exact ⟨BitVec.eq_of_toNat_eq (by simp; omega), BitVec.eq_of_toNat_eq (by simp; omega)⟩

/-- A word whose bits 11:8 are 0 is the format C word of its own fields. -/
theorem wordC_fields (w : Word) (h : w.extractLsb' 8 4 = 0#4) : wordC (opField w) (cField w) = w := by
  rw [wordC, ← h]
  apply BitVec.eq_of_getLsbD_eq
  intro n hn
  simp only [opField, cField, BitVec.getLsbD_append, BitVec.getLsbD_extractLsb']
  interval_cases n <;> simp

end Sys2Proof
end

