-- ==== Sys2Proof/Laws/State.lean ====
section
/-! SUPPORT. One lemma per field per update of `State`, and the triple's own get and set, so that no later proof
unfolds a record update. -/

namespace Sys2Proof

@[simp] theorem PerRotor.get_set_same {α : Type} (p : PerRotor α) (k : Rotor) (x : α) : (p.set k x).get k = x := by
  cases k <;> rfl

theorem PerRotor.get_set_of_ne {α : Type} (p : PerRotor α) {j k : Rotor} (x : α) (h : j ≠ k) :
    (p.set k x).get j = p.get j := by
  cases j <;> cases k <;> first | rfl | exact absurd rfl h

theorem PerRotor.ext_get {α : Type} {p q : PerRotor α} (h : ∀ k, p.get k = q.get k) : p = q := by
  have hl := h .left
  have hm := h .middle
  have hr := h .right
  cases p
  cases q
  simp only [PerRotor.get] at hl hm hr
  rw [hl, hm, hr]

end Sys2Proof

namespace Sys2Proof.Machine

variable (s : State)


/-! ## setPos -/

@[simp] theorem State.setPos_pos (k : Rotor) (v : Index) : (s.setPos k v).pos = s.pos.set k v := rfl
@[simp] theorem State.setPos_ring (k : Rotor) (v : Index) : (s.setPos k v).ring = s.ring := rfl
@[simp] theorem State.setPos_notch (k : Rotor) (v : Index) : (s.setPos k v).notch = s.notch := rfl
@[simp] theorem State.setPos_mem (k : Rotor) (v : Index) : (s.setPos k v).mem = s.mem := rfl
@[simp] theorem State.setPos_phase (k : Rotor) (v : Index) : (s.setPos k v).phase = s.phase := rfl
@[simp] theorem State.setPos_fault (k : Rotor) (v : Index) : (s.setPos k v).fault = s.fault := rfl
@[simp] theorem State.setPos_cause (k : Rotor) (v : Index) : (s.setPos k v).cause = s.cause := rfl
@[simp] theorem State.setPos_session (k : Rotor) (v : Index) : (s.setPos k v).session = s.session := rfl
@[simp] theorem State.setPos_inbox (k : Rotor) (v : Index) : (s.setPos k v).inbox = s.inbox := rfl
@[simp] theorem State.setPos_responses (k : Rotor) (v : Index) : (s.setPos k v).responses = s.responses := rfl

/-! ## setRing -/

@[simp] theorem State.setRing_pos (k : Rotor) (v : Index) : (s.setRing k v).pos = s.pos := rfl
@[simp] theorem State.setRing_ring (k : Rotor) (v : Index) : (s.setRing k v).ring = s.ring.set k v := rfl
@[simp] theorem State.setRing_notch (k : Rotor) (v : Index) : (s.setRing k v).notch = s.notch := rfl
@[simp] theorem State.setRing_mem (k : Rotor) (v : Index) : (s.setRing k v).mem = s.mem := rfl
@[simp] theorem State.setRing_phase (k : Rotor) (v : Index) : (s.setRing k v).phase = s.phase := rfl
@[simp] theorem State.setRing_fault (k : Rotor) (v : Index) : (s.setRing k v).fault = s.fault := rfl
@[simp] theorem State.setRing_cause (k : Rotor) (v : Index) : (s.setRing k v).cause = s.cause := rfl
@[simp] theorem State.setRing_session (k : Rotor) (v : Index) : (s.setRing k v).session = s.session := rfl
@[simp] theorem State.setRing_inbox (k : Rotor) (v : Index) : (s.setRing k v).inbox = s.inbox := rfl
@[simp] theorem State.setRing_responses (k : Rotor) (v : Index) : (s.setRing k v).responses = s.responses := rfl

/-! ## addNotch -/

@[simp] theorem State.addNotch_pos (k : Rotor) (x : Index) : (s.addNotch k x).pos = s.pos := rfl
@[simp] theorem State.addNotch_ring (k : Rotor) (x : Index) : (s.addNotch k x).ring = s.ring := rfl
@[simp] theorem State.addNotch_notch (k : Rotor) (x : Index) : (s.addNotch k x).notch = s.notch.set k (s.notch.get k ||| BitVec.twoPow 26 x.val) := rfl
@[simp] theorem State.addNotch_mem (k : Rotor) (x : Index) : (s.addNotch k x).mem = s.mem := rfl
@[simp] theorem State.addNotch_phase (k : Rotor) (x : Index) : (s.addNotch k x).phase = s.phase := rfl
@[simp] theorem State.addNotch_fault (k : Rotor) (x : Index) : (s.addNotch k x).fault = s.fault := rfl
@[simp] theorem State.addNotch_cause (k : Rotor) (x : Index) : (s.addNotch k x).cause = s.cause := rfl
@[simp] theorem State.addNotch_session (k : Rotor) (x : Index) : (s.addNotch k x).session = s.session := rfl
@[simp] theorem State.addNotch_inbox (k : Rotor) (x : Index) : (s.addNotch k x).inbox = s.inbox := rfl
@[simp] theorem State.addNotch_responses (k : Rotor) (x : Index) : (s.addNotch k x).responses = s.responses := rfl

/-! ## writeTable -/

@[simp] theorem State.writeTable_pos (t : TableId) (a v : Index) : (s.writeTable t a v).pos = s.pos := rfl
@[simp] theorem State.writeTable_ring (t : TableId) (a v : Index) : (s.writeTable t a v).ring = s.ring := rfl
@[simp] theorem State.writeTable_notch (t : TableId) (a v : Index) : (s.writeTable t a v).notch = s.notch := rfl
@[simp] theorem State.writeTable_mem (t : TableId) (a v : Index) : (s.writeTable t a v).mem = s.mem.write t a v := rfl
@[simp] theorem State.writeTable_phase (t : TableId) (a v : Index) : (s.writeTable t a v).phase = s.phase := rfl
@[simp] theorem State.writeTable_fault (t : TableId) (a v : Index) : (s.writeTable t a v).fault = s.fault := rfl
@[simp] theorem State.writeTable_cause (t : TableId) (a v : Index) : (s.writeTable t a v).cause = s.cause := rfl
@[simp] theorem State.writeTable_session (t : TableId) (a v : Index) : (s.writeTable t a v).session = s.session := rfl
@[simp] theorem State.writeTable_inbox (t : TableId) (a v : Index) : (s.writeTable t a v).inbox = s.inbox := rfl
@[simp] theorem State.writeTable_responses (t : TableId) (a v : Index) : (s.writeTable t a v).responses = s.responses := rfl

/-! ## setPhase -/

@[simp] theorem State.setPhase_pos (p : Phase) : (s.setPhase p).pos = s.pos := rfl
@[simp] theorem State.setPhase_ring (p : Phase) : (s.setPhase p).ring = s.ring := rfl
@[simp] theorem State.setPhase_notch (p : Phase) : (s.setPhase p).notch = s.notch := rfl
@[simp] theorem State.setPhase_mem (p : Phase) : (s.setPhase p).mem = s.mem := rfl
@[simp] theorem State.setPhase_phase (p : Phase) : (s.setPhase p).phase = p := rfl
@[simp] theorem State.setPhase_fault (p : Phase) : (s.setPhase p).fault = s.fault := rfl
@[simp] theorem State.setPhase_cause (p : Phase) : (s.setPhase p).cause = s.cause := rfl
@[simp] theorem State.setPhase_session (p : Phase) : (s.setPhase p).session = s.session := rfl
@[simp] theorem State.setPhase_inbox (p : Phase) : (s.setPhase p).inbox = s.inbox := rfl
@[simp] theorem State.setPhase_responses (p : Phase) : (s.setPhase p).responses = s.responses := rfl

/-! ## respond -/

@[simp] theorem State.respond_pos (r : Response) : (s.respond r).pos = s.pos := rfl
@[simp] theorem State.respond_ring (r : Response) : (s.respond r).ring = s.ring := rfl
@[simp] theorem State.respond_notch (r : Response) : (s.respond r).notch = s.notch := rfl
@[simp] theorem State.respond_mem (r : Response) : (s.respond r).mem = s.mem := rfl
@[simp] theorem State.respond_phase (r : Response) : (s.respond r).phase = s.phase := rfl
@[simp] theorem State.respond_fault (r : Response) : (s.respond r).fault = s.fault := rfl
@[simp] theorem State.respond_cause (r : Response) : (s.respond r).cause = s.cause := rfl
@[simp] theorem State.respond_session (r : Response) : (s.respond r).session = s.session := rfl
@[simp] theorem State.respond_inbox (r : Response) : (s.respond r).inbox = s.inbox := rfl
@[simp] theorem State.respond_responses (r : Response) : (s.respond r).responses = s.responses ++ [r] := rfl

/-! ## recordError -/

@[simp] theorem State.recordError_pos (e : ErrorKind) : (s.recordError e).pos = s.pos := rfl
@[simp] theorem State.recordError_ring (e : ErrorKind) : (s.recordError e).ring = s.ring := rfl
@[simp] theorem State.recordError_notch (e : ErrorKind) : (s.recordError e).notch = s.notch := rfl
@[simp] theorem State.recordError_mem (e : ErrorKind) : (s.recordError e).mem = s.mem := rfl
@[simp] theorem State.recordError_phase (e : ErrorKind) : (s.recordError e).phase = s.phase := rfl
@[simp] theorem State.recordError_fault (e : ErrorKind) : (s.recordError e).fault = true := rfl
@[simp] theorem State.recordError_cause (e : ErrorKind) : (s.recordError e).cause = if s.fault then s.cause else e.code := rfl
@[simp] theorem State.recordError_session (e : ErrorKind) : (s.recordError e).session = s.session := rfl
@[simp] theorem State.recordError_inbox (e : ErrorKind) : (s.recordError e).inbox = s.inbox := rfl
@[simp] theorem State.recordError_responses (e : ErrorKind) : (s.recordError e).responses = s.responses := rfl

/-! ## setInbox -/

@[simp] theorem State.setInbox_pos (l : List HostEvent) : (s.setInbox l).pos = s.pos := rfl
@[simp] theorem State.setInbox_ring (l : List HostEvent) : (s.setInbox l).ring = s.ring := rfl
@[simp] theorem State.setInbox_notch (l : List HostEvent) : (s.setInbox l).notch = s.notch := rfl
@[simp] theorem State.setInbox_mem (l : List HostEvent) : (s.setInbox l).mem = s.mem := rfl
@[simp] theorem State.setInbox_phase (l : List HostEvent) : (s.setInbox l).phase = s.phase := rfl
@[simp] theorem State.setInbox_fault (l : List HostEvent) : (s.setInbox l).fault = s.fault := rfl
@[simp] theorem State.setInbox_cause (l : List HostEvent) : (s.setInbox l).cause = s.cause := rfl
@[simp] theorem State.setInbox_session (l : List HostEvent) : (s.setInbox l).session = s.session := rfl
@[simp] theorem State.setInbox_inbox (l : List HostEvent) : (s.setInbox l).inbox = l := rfl
@[simp] theorem State.setInbox_responses (l : List HostEvent) : (s.setInbox l).responses = s.responses := rfl

/-! ## computeInverses -/

@[simp] theorem State.computeInverses_pos : (s.computeInverses).pos = s.pos := rfl
@[simp] theorem State.computeInverses_ring : (s.computeInverses).ring = s.ring := rfl
@[simp] theorem State.computeInverses_notch : (s.computeInverses).notch = s.notch := rfl
@[simp] theorem State.computeInverses_phase : (s.computeInverses).phase = s.phase := rfl
@[simp] theorem State.computeInverses_fault : (s.computeInverses).fault = s.fault := rfl
@[simp] theorem State.computeInverses_cause : (s.computeInverses).cause = s.cause := rfl
@[simp] theorem State.computeInverses_session : (s.computeInverses).session = s.session := rfl
@[simp] theorem State.computeInverses_inbox : (s.computeInverses).inbox = s.inbox := rfl
@[simp] theorem State.computeInverses_responses : (s.computeInverses).responses = s.responses := rfl

/-! ## presentWord -/

@[simp] theorem State.presentWord_pos (w : Word) : (s.presentWord w).pos = s.pos := rfl
@[simp] theorem State.presentWord_ring (w : Word) : (s.presentWord w).ring = s.ring := rfl
@[simp] theorem State.presentWord_notch (w : Word) : (s.presentWord w).notch = s.notch := rfl
@[simp] theorem State.presentWord_mem (w : Word) : (s.presentWord w).mem = s.mem := rfl
@[simp] theorem State.presentWord_phase (w : Word) : (s.presentWord w).phase = s.phase := rfl
@[simp] theorem State.presentWord_fault (w : Word) : (s.presentWord w).fault = s.fault := rfl
@[simp] theorem State.presentWord_cause (w : Word) : (s.presentWord w).cause = s.cause := rfl
@[simp] theorem State.presentWord_session (w : Word) : (s.presentWord w).session = s.session := rfl
@[simp] theorem State.presentWord_inbox (w : Word) : (s.presentWord w).inbox = .command w :: s.inbox := rfl
@[simp] theorem State.presentWord_responses (w : Word) : (s.presentWord w).responses = s.responses := rfl

/-! ## withFetchWord -/

@[simp] theorem State.withFetchWord_pos (n w : Nat) : (s.withFetchWord n w).pos = s.pos := rfl
@[simp] theorem State.withFetchWord_ring (n w : Nat) : (s.withFetchWord n w).ring = s.ring := rfl
@[simp] theorem State.withFetchWord_notch (n w : Nat) : (s.withFetchWord n w).notch = s.notch := rfl
@[simp] theorem State.withFetchWord_mem (n w : Nat) : (s.withFetchWord n w).mem = s.mem := rfl
@[simp] theorem State.withFetchWord_phase (n w : Nat) : (s.withFetchWord n w).phase = s.phase := rfl
@[simp] theorem State.withFetchWord_fault (n w : Nat) : (s.withFetchWord n w).fault = s.fault := rfl
@[simp] theorem State.withFetchWord_cause (n w : Nat) : (s.withFetchWord n w).cause = s.cause := rfl
@[simp] theorem State.withFetchWord_session (n w : Nat) : (s.withFetchWord n w).session = s.session := rfl
@[simp] theorem State.withFetchWord_inbox (n w : Nat) : (s.withFetchWord n w).inbox = .command (BitVec.ofNat 16 (w % 2 ^ n)) :: s.inbox := rfl
@[simp] theorem State.withFetchWord_responses (n w : Nat) : (s.withFetchWord n w).responses = s.responses := rfl

/-! ## hostReset -/

@[simp] theorem State.hostReset_pos : s.hostReset.pos = State.reset.pos := rfl
@[simp] theorem State.hostReset_ring : s.hostReset.ring = State.reset.ring := rfl
@[simp] theorem State.hostReset_notch : s.hostReset.notch = State.reset.notch := rfl
@[simp] theorem State.hostReset_mem : s.hostReset.mem = State.reset.mem := rfl
@[simp] theorem State.hostReset_phase : s.hostReset.phase = State.reset.phase := rfl
@[simp] theorem State.hostReset_fault : s.hostReset.fault = State.reset.fault := rfl
@[simp] theorem State.hostReset_cause : s.hostReset.cause = State.reset.cause := rfl
@[simp] theorem State.hostReset_session : s.hostReset.session = s.session + 1 := rfl
@[simp] theorem State.hostReset_inbox : s.hostReset.inbox = s.inbox := rfl
@[simp] theorem State.hostReset_responses : s.hostReset.responses = s.responses := rfl

end Sys2Proof.Machine
end

