-- ==== Sys2Proof/Laws/Memory.lean ====
section
/-! SUPPORT. What a table read gives after a write, and that every operation keeps the canonical form of memory. -/

namespace Sys2Proof.Machine

/-! ## One table -/

theorem Table.entry_put_same (t : Table) (a v : Index) : (Table.put t a v).entry a = some v := by
  induction t with
  | nil => simp [Table.put, Table.entry]
  | cons e t ih =>
    obtain ⟨b, u⟩ := e
    unfold Table.put
    split
    · simp [Table.entry]
    · split
      · simp [Table.entry]
      · next hne => simpa [Table.entry, hne] using ih

theorem Table.entry_put_of_ne (t : Table) {a a' : Index} (v : Index) (h : a' ≠ a) :
    (Table.put t a v).entry a' = t.entry a' := by
  induction t with
  | nil => simp [Table.put, Table.entry, h]
  | cons e t ih =>
    obtain ⟨b, u⟩ := e
    unfold Table.put
    split
    · simp [Table.entry, h]
    · split
      · next heq => subst heq; simp [Table.entry, h]
      · simp [Table.entry, ih]

theorem Table.entry_unlist_same (t : Table) (a : Index) : (Table.unlist t a).entry a = none := by
  induction t with
  | nil => rfl
  | cons e t ih =>
    obtain ⟨b, u⟩ := e
    unfold Table.unlist
    split
    · exact ih
    · next hne => simpa [Table.entry, hne] using ih

theorem Table.entry_unlist_of_ne (t : Table) {a a' : Index} (h : a' ≠ a) :
    (Table.unlist t a).entry a' = t.entry a' := by
  induction t with
  | nil => rfl
  | cons e t ih =>
    obtain ⟨b, u⟩ := e
    unfold Table.unlist
    split
    · next heq => subst heq; simpa [Table.entry, h] using ih
    · simp [Table.entry, ih]

theorem Table.entry_map_pair (f : Index → Index) (a : Index) (l : List Index) (h : a ∈ l) :
    Table.entry (l.map fun b => (b, f b)) a = some (f a) := by
  induction l with
  | nil => cases h
  | cons b l ih =>
    by_cases hab : a = b
    · simp [Table.entry, hab]
    · simpa [Table.entry, hab] using ih (by simpa [hab] using h)

@[simp] theorem Table.entry_full (f : Index → Index) (a : Index) : (Table.full f).entry a = some (f a) :=
  Table.entry_map_pair f a _ (List.mem_finRange a)

theorem Table.mem_put {t : Table} {a v : Index} {e : Index × Index} (h : e ∈ Table.put t a v) :
    e = (a, v) ∨ e ∈ t := by
  induction t with
  | nil => simpa [Table.put] using h
  | cons d t ih =>
    obtain ⟨b, u⟩ := d
    unfold Table.put at h
    split at h
    · simpa using h
    · split at h
      · rcases List.mem_cons.mp h with rfl | h
        · exact .inl rfl
        · exact .inr (List.mem_cons_of_mem _ h)
      · rcases List.mem_cons.mp h with rfl | h
        · exact .inr (List.mem_cons_self)
        · exact (ih h).imp_right (List.mem_cons_of_mem _)

theorem Table.mem_unlist {t : Table} {a : Index} {e : Index × Index} (h : e ∈ Table.unlist t a) : e ∈ t := by
  induction t with
  | nil => exact h
  | cons d t ih =>
    obtain ⟨b, u⟩ := d
    unfold Table.unlist at h
    split at h
    · exact List.mem_cons_of_mem _ (ih h)
    · rcases List.mem_cons.mp h with rfl | h
      · exact List.mem_cons_self
      · exact List.mem_cons_of_mem _ (ih h)

theorem Table.put_rising {t : Table} (a v : Index) (h : t.Rising) : (Table.put t a v).Rising := by
  induction t with
  | nil => simp [Table.put]
  | cons d t ih =>
    obtain ⟨b, u⟩ := d
    obtain ⟨hb, ht⟩ := List.pairwise_cons.mp h
    unfold Table.put
    split
    · next hlt =>
      refine List.pairwise_cons.mpr ⟨fun e he => ?_, h⟩
      rcases List.mem_cons.mp he with rfl | he
      · exact hlt
      · exact lt_trans hlt (hb e he)
    · split
      · next heq => subst heq; exact List.pairwise_cons.mpr ⟨hb, ht⟩
      · next hlt hne =>
        refine List.pairwise_cons.mpr ⟨fun e he => ?_, ih ht⟩
        rcases Table.mem_put he with rfl | he
        · exact lt_of_le_of_ne (not_lt.mp hlt) (Ne.symm hne)
        · exact hb e he

theorem Table.unlist_rising {t : Table} (a : Index) (h : t.Rising) : (Table.unlist t a).Rising := by
  induction t with
  | nil => exact h
  | cons d t ih =>
    obtain ⟨b, u⟩ := d
    obtain ⟨hb, ht⟩ := List.pairwise_cons.mp h
    unfold Table.unlist
    split
    · exact ih ht
    · exact List.pairwise_cons.mpr ⟨fun e he => hb e (Table.mem_unlist he), ih ht⟩

theorem Table.full_rising (f : Index → Index) : (Table.full f).Rising :=
  List.pairwise_map.mpr (List.pairwise_lt_finRange 26)

/-! ## The eight tables -/

@[simp] theorem Memory.table_setTable_same (m : Memory) (t : TableId) (x : Table) : (m.setTable t x).table t = x := by
  cases t <;> simp [Memory.setTable, Memory.table]

theorem Memory.table_setTable_of_ne (m : Memory) {t t' : TableId} (x : Table) (h : t' ≠ t) :
    (m.setTable t x).table t' = m.table t' := by
  cases t <;> cases t' <;> first
    | rfl
    | exact absurd rfl h
    | exact PerRotor.get_set_of_ne _ _ fun e => h (by rw [e])

/-- What one entry lists after a write: the datum, or nothing where the plugboard takes the identity back. -/
theorem Memory.entry_write_same (m : Memory) (t : TableId) (a v : Index) :
    ((m.write t a v).table t).entry a = if t = .plugboard ∧ v = a then none else some v := by
  unfold Memory.write
  split
  · simp [Table.entry_unlist_same]
  · simp [Table.entry_put_same]

theorem Memory.entry_write_of_ne (m : Memory) {t t' : TableId} {a a' : Index} (v : Index)
    (h : ¬(t' = t ∧ a' = a)) : ((m.write t a v).table t').entry a' = (m.table t').entry a' := by
  by_cases ht : t' = t
  · subst ht
    have ha : a' ≠ a := fun e => h ⟨rfl, e⟩
    unfold Memory.write
    split
    · simp [Table.entry_unlist_of_ne _ ha]
    · simp [Table.entry_put_of_ne _ _ ha]
  · unfold Memory.write
    split <;> rw [Memory.table_setTable_of_ne _ _ ht]

/-- A read after a write to the same entry gives the value written, in every state of the memory. -/
@[simp] theorem Memory.read_write_same (n : Nat) (m : Memory) (t : TableId) (a v : Index) :
    (m.write t a v).read n t a = v := by
  unfold Memory.read
  rw [Memory.entry_write_same]
  split
  · next h =>
    split at h
    · cases h
    · exact (Option.some.inj h).symm
  · next h =>
    split at h
    · next hp => rw [hp.1, hp.2]; rfl
    · cases h

/-- A write leaves every other entry of every table alone. -/
theorem Memory.read_write_of_ne (n : Nat) (m : Memory) {t t' : TableId} {a a' : Index} (v : Index)
    (h : ¬(t' = t ∧ a' = a)) : (m.write t a v).read n t' a' = m.read n t' a' := by
  unfold Memory.read
  rw [Memory.entry_write_of_ne m v h]

theorem mem_allTables (t : TableId) : t ∈ allTables := by
  cases t with
  | wiring k => cases k <;> simp [allTables]
  | inverse k => cases k <;> simp [allTables]
  | reflector => simp [allTables]
  | plugboard => simp [allTables]

theorem Memory.wf_iff (m : Memory) :
    m.wf ↔ (∀ t, (m.table t).Rising) ∧ ∀ e ∈ m.table .plugboard, e.2 ≠ e.1 := by
  have hp : (m.plugboard.all fun e => e.2 != e.1) = true ↔ ∀ e ∈ m.table .plugboard, e.2 ≠ e.1 := by
    simp [Memory.table]
  exact ⟨fun h => ⟨fun t => h.1 t (mem_allTables t), hp.mp h.2⟩, fun h => ⟨fun t _ => h.1 t, hp.mpr h.2⟩⟩

/-- A memory that differs from a canonical one in one table, itself canonical, is canonical. -/
theorem Memory.setTable_wf {m : Memory} (t : TableId) (x : Table) (h : m.wf) (hx : x.Rising)
    (hp : t = .plugboard → ∀ e ∈ x, e.2 ≠ e.1) : (m.setTable t x).wf := by
  rw [Memory.wf_iff] at h ⊢
  refine ⟨fun t' => ?_, ?_⟩
  · by_cases ht : t' = t
    · subst ht; simpa using hx
    · rw [Memory.table_setTable_of_ne _ _ ht]; exact h.1 t'
  · by_cases ht : TableId.plugboard = t
    · subst ht; simpa using hp rfl
    · rw [Memory.table_setTable_of_ne _ _ ht]; exact h.2

theorem Memory.write_wf {m : Memory} (t : TableId) (a v : Index) (h : m.wf) : (m.write t a v).wf := by
  have hm := (Memory.wf_iff m).mp h
  unfold Memory.write
  split
  · refine Memory.setTable_wf _ _ h (Table.unlist_rising _ (hm.1 t)) fun ht e he => ?_
    subst ht
    exact hm.2 e (Table.mem_unlist he)
  · next hne =>
    refine Memory.setTable_wf _ _ h (Table.put_rising _ _ (hm.1 t)) fun ht e he => ?_
    subst ht
    rcases Table.mem_put he with rfl | he
    · exact fun hv => hne ⟨rfl, hv⟩
    · exact hm.2 e he

theorem State.reset_mem_wf : State.reset.mem.wf := by decide

/-! ## Through the state -/

@[simp] theorem State.readTable_writeTable_same (s : State) (t : TableId) (a v : Index) :
    (s.writeTable t a v).readTable t a = v :=
  Memory.read_write_same _ _ _ _ _

theorem State.readTable_writeTable_of_ne (s : State) {t t' : TableId} {a a' : Index} (v : Index)
    (h : ¬(t' = t ∧ a' = a)) : (s.writeTable t a v).readTable t' a' = s.readTable t' a' :=
  Memory.read_write_of_ne _ _ _ h

/-- A table read sees only the tables and the session. -/
theorem State.readTable_congr {s t : State} (hm : t.mem = s.mem) (hn : t.session = s.session) :
    t.readTable = s.readTable := by
  funext tab a
  rw [State.readTable, State.readTable, hm, hn]

/-! ## BUILD -/

theorem State.computeInverses_table_of_not_inverse (s : State) {t : TableId} (h : ∀ k, t ≠ .inverse k) :
    s.computeInverses.mem.table t = s.mem.table t := by
  cases t with
  | inverse k => exact absurd rfl (h k)
  | wiring k => rfl
  | reflector => rfl
  | plugboard => rfl

@[simp] theorem State.computeInverses_table_inverse (s : State) (k : Rotor) :
    s.computeInverses.mem.table (.inverse k) =
      Table.full (builtInverse s.session k (s.readTable (.wiring k))) := by
  cases k <;> rfl

theorem isPermutation_injective {w : Index → Index} (h : isPermutation w) : Function.Injective w :=
  Finite.injective_iff_surjective.mpr h

/-- For a permutation the inverse `BUILD` computes undoes it, and no free value enters. -/
theorem builtInverse_of_isPermutation (n : Nat) (k : Rotor) {w : Index → Index} (h : isPermutation w) (i : Index) :
    builtInverse n k w (w i) = i := by
  have hs : (entryHolding w (w i)).isSome := by simp [entryHolding, List.find?_isSome]
  obtain ⟨j, hj⟩ := Option.isSome_iff_exists.mp hs
  have hw : w j = w i := by simpa using List.find?_some hj
  rw [builtInverse, hj]
  simp only [if_pos h]
  exact isPermutation_injective h hw

/-- What `INV` reads as after its computation. -/
theorem State.readTable_computeInverses_inverse (s : State) (k : Rotor) (a : Index) :
    s.computeInverses.readTable (.inverse k) a = builtInverse s.session k (s.readTable (.wiring k)) a := by
  unfold State.readTable Memory.read
  rw [State.computeInverses_table_inverse, Table.entry_full]
  rfl

/-- The computation leaves every other table alone. -/
theorem State.readTable_computeInverses_of_not_inverse (s : State) {t : TableId} (h : ∀ k, t ≠ .inverse k) :
    s.computeInverses.readTable t = s.readTable t := by
  funext a
  unfold State.readTable Memory.read
  rw [State.computeInverses_table_of_not_inverse _ h]
  rfl

theorem State.isWritten_computeInverses (s : State) (k : Rotor) (a : Index) :
    s.computeInverses.mem.isWritten (.inverse k) a = true := by
  simp [Memory.isWritten]

theorem State.computeInverses_wf {s : State} (h : s.mem.wf) : s.computeInverses.mem.wf := by
  rw [Memory.wf_iff] at h ⊢
  refine ⟨fun t => ?_, ?_⟩
  · cases t with
    | inverse k => rw [State.computeInverses_table_inverse]; exact Table.full_rising _
    | wiring k => exact h.1 (.wiring k)
    | reflector => exact h.1 .reflector
    | plugboard => exact h.1 .plugboard
  · exact h.2

end Sys2Proof.Machine
end

