-- ==== Sys2Proof/Laws/Exec.lean ====
section
/-! SUPPORT. What each shared operation and each command can do: one inversion lemma per command, which says that it
either raises the error of its first failed check or has its effect. -/

namespace Sys2Proof.Machine

/-! ## The shared operations -/

/-- An error leaves the state `errorAnswered` describes. -/
theorem raise_eq (e : ErrorKind) (s : State) : raise e s = .next (s.errorAnswered e e.code) := rfl

theorem answer_eq (r : Response) (s : State) : answer r s = .next (s.respond r) := rfl

theorem requirePhase_of_eq {p : Phase} {s : State} (rest : Result) (h : s.phase = p) :
    requirePhase p s rest = rest := by
  simp [requirePhase, h]

theorem requirePhase_of_ne {p : Phase} {s : State} (rest : Result) (h : s.phase ≠ p) :
    requirePhase p s rest = raise .wrongPhase s := by
  simp [requirePhase, h]

@[simp] theorem rotorOfSelect_three : rotorOfSelect 3#2 = none := rfl

theorem rotorOfSelect_eq_none_iff (r : BitVec 2) : rotorOfSelect r = none ↔ r = 3#2 := by
  revert r
  decide

theorem rotorOfSelect_eq_some_iff (r : BitVec 2) (k : Rotor) : rotorOfSelect r = some k ↔ r = rotorSelect k := by
  cases k <;> revert r <;> decide

theorem withRotor_of_some {r : BitVec 2} {k : Rotor} (s : State) (rest : Rotor → Result)
    (h : rotorOfSelect r = some k) : withRotor r s rest = rest k := by
  simp [withRotor, h]

theorem withRotor_three (s : State) (rest : Rotor → Result) :
    withRotor 3#2 s rest = raise .illegalCommand s := rfl

theorem withRotor_rotorSelect (k : Rotor) (s : State) (rest : Rotor → Result) :
    withRotor (rotorSelect k) s rest = rest k :=
  withRotor_of_some s rest (rotorOfSelect_rotorSelect k)

theorem indexOfField_eq_none_iff (f : BitVec 5) : indexOfField f = none ↔ 25 < f.toNat := by
  unfold indexOfField
  split
  · simp; omega
  · simp; omega

theorem indexOfField_eq_some_iff (f : BitVec 5) (x : Index) : indexOfField f = some x ↔ f.toNat = x.val := by
  have hx := x.isLt
  unfold indexOfField
  split
  · simp [Fin.ext_iff]
  · simp; omega

theorem withIndex_of_some {f : BitVec 5} {x : Index} (s : State) (rest : Index → Result)
    (h : indexOfField f = some x) : withIndex f s rest = rest x := by
  simp [withIndex, h]

theorem withIndex_of_none {f : BitVec 5} (s : State) (rest : Index → Result) (h : indexOfField f = none) :
    withIndex f s rest = raise .invalidSymbol s := by
  simp [withIndex, h]

theorem withIndex_indexCode (x : Index) (s : State) (rest : Index → Result) :
    withIndex (indexCode x) s rest = rest x :=
  withIndex_of_some s rest (indexOfField_indexCode x)

/-- The rotor select of a command: illegal, or some rotor's. -/
theorem select_cases (r : BitVec 2) :
    (r = 3#2 ∧ rotorOfSelect r = none) ∨ ∃ k, r ≠ 3#2 ∧ rotorOfSelect r = some k := by
  cases h : rotorOfSelect r with
  | none => exact .inl ⟨(rotorOfSelect_eq_none_iff r).mp h, rfl⟩
  | some k =>
    refine .inr ⟨k, fun e => ?_, rfl⟩
    rw [(rotorOfSelect_eq_none_iff r).mpr e] at h
    cases h

/-- A letter field of a command: above 25, or some index's. -/
theorem field_cases (f : BitVec 5) :
    (25 < f.toNat ∧ indexOfField f = none) ∨ ∃ x, ¬ 25 < f.toNat ∧ indexOfField f = some x := by
  cases h : indexOfField f with
  | none => exact .inl ⟨(indexOfField_eq_none_iff f).mp h, rfl⟩
  | some x =>
    refine .inr ⟨x, fun e => ?_, rfl⟩
    rw [(indexOfField_eq_none_iff f).mpr e] at h
    cases h

/-! ## The commands -/

/-- What a command that raises an error gives. -/
def RaisesFirst (i : Instr) (s : State) : Prop :=
  ∃ e, firstFailedCheck i s.phase = some e ∧ exec i s = raise e s

theorem execWrw_cases (r : BitVec 2) (i v : BitVec 5) (s : State) :
    RaisesFirst (.wrw r i v) s ∨
      (firstFailedCheck (.wrw r i v) s.phase = none ∧ s.phase = .cfg ∧
        ∃ k a d, rotorOfSelect r = some k ∧ indexOfField i = some a ∧ indexOfField v = some d ∧
          exec (.wrw r i v) s = answer .ack (s.writeTable (.wiring k) a d)) := by
  rcases select_cases r with ⟨hr, hs⟩ | ⟨k, hr, hs⟩ <;> cases hp : s.phase <;>
    rcases field_cases i with ⟨hi, hi'⟩ | ⟨a, hi, hi'⟩ <;> rcases field_cases v with ⟨hv, hv'⟩ | ⟨d, hv, hv'⟩ <;>
    simp [RaisesFirst, firstFailedCheck, exec, execWrw, withRotor, requirePhase, withIndex, hr, hs, hp, hi, hi', hv,
      hv', -not_lt]

theorem execWrf_cases (i v : BitVec 5) (s : State) :
    RaisesFirst (.wrf i v) s ∨
      (firstFailedCheck (.wrf i v) s.phase = none ∧ s.phase = .cfg ∧
        ∃ a d, indexOfField i = some a ∧ indexOfField v = some d ∧
          exec (.wrf i v) s = answer .ack (s.writeTable .reflector a d)) := by
  cases hp : s.phase <;> rcases field_cases i with ⟨hi, hi'⟩ | ⟨a, hi, hi'⟩ <;>
    rcases field_cases v with ⟨hv, hv'⟩ | ⟨d, hv, hv'⟩ <;>
    simp [RaisesFirst, firstFailedCheck, exec, execWrf, requirePhase, withIndex, hp, hi, hi', hv, hv', -not_lt]

theorem execPlug_cases (a b : BitVec 5) (s : State) :
    RaisesFirst (.plug a b) s ∨
      (firstFailedCheck (.plug a b) s.phase = none ∧ s.phase = .cfg ∧
        ∃ x y, indexOfField a = some x ∧ indexOfField b = some y ∧
          exec (.plug a b) s = answer .ack ((s.writeTable .plugboard x y).writeTable .plugboard y x)) := by
  cases hp : s.phase <;> rcases field_cases a with ⟨hi, hi'⟩ | ⟨x, hi, hi'⟩ <;>
    rcases field_cases b with ⟨hv, hv'⟩ | ⟨y, hv, hv'⟩ <;>
    simp [RaisesFirst, firstFailedCheck, exec, execPlug, requirePhase, withIndex, hp, hi, hi', hv, hv', -not_lt]

theorem execNotch_cases (r : BitVec 2) (n : BitVec 5) (s : State) :
    RaisesFirst (.notch r n) s ∨
      (firstFailedCheck (.notch r n) s.phase = none ∧ s.phase = .cfg ∧
        ∃ k x, rotorOfSelect r = some k ∧ indexOfField n = some x ∧
          exec (.notch r n) s = answer .ack (s.addNotch k x)) := by
  rcases select_cases r with ⟨hr, hs⟩ | ⟨k, hr, hs⟩ <;> cases hp : s.phase <;>
    rcases field_cases n with ⟨hi, hi'⟩ | ⟨a, hi, hi'⟩ <;>
    simp [RaisesFirst, firstFailedCheck, exec, execNotch, withRotor, requirePhase, withIndex, hr, hs, hp, hi, hi',
      -not_lt]

theorem execRing_cases (r : BitVec 2) (g : BitVec 5) (s : State) :
    RaisesFirst (.ring r g) s ∨
      (firstFailedCheck (.ring r g) s.phase = none ∧ s.phase = .cfg ∧
        ∃ k, rotorOfSelect r = some k ∧ exec (.ring r g) s = answer .ack (s.setRing k (indexReduced g))) := by
  rcases select_cases r with ⟨hr, hs⟩ | ⟨k, hr, hs⟩ <;> cases hp : s.phase <;>
    simp [RaisesFirst, firstFailedCheck, exec, execRing, withRotor, requirePhase, hr, hs, hp]

theorem execPos_cases (r : BitVec 2) (p : BitVec 5) (s : State) :
    RaisesFirst (.pos r p) s ∨
      (firstFailedCheck (.pos r p) s.phase = none ∧ s.phase = .cfg ∧
        ∃ k, rotorOfSelect r = some k ∧ exec (.pos r p) s = answer .ack (s.setPos k (indexReduced p))) := by
  rcases select_cases r with ⟨hr, hs⟩ | ⟨k, hr, hs⟩ <;> cases hp : s.phase <;>
    simp [RaisesFirst, firstFailedCheck, exec, execPos, withRotor, requirePhase, hr, hs, hp]

theorem execBuild_cases (s : State) :
    RaisesFirst .build s ∨
      (firstFailedCheck .build s.phase = none ∧ s.phase = .cfg ∧
        exec .build s = answer .ack (s.computeInverses.setPhase .run)) := by
  cases hp : s.phase <;> simp [RaisesFirst, firstFailedCheck, exec, execBuild, requirePhase, hp]

theorem execEnc_cases (c : Character) (s : State) :
    RaisesFirst (.enc c) s ∨
      (firstFailedCheck (.enc c) s.phase = none ∧ s.phase = .run ∧
        ((l2i c = none ∧ exec (.enc c) s = answer (.sym c) s) ∨
          ∃ x, l2i c = some x ∧ exec (.enc c) s = encryptLetter x s)) := by
  cases hp : s.phase <;> cases hc : l2i c <;>
    simp [RaisesFirst, firstFailedCheck, exec, execEnc, requirePhase, hp, hc]

theorem execEnct_cases (c : Character) (s : State) :
    RaisesFirst (.enct c) s ∨
      (firstFailedCheck (.enct c) s.phase = none ∧ s.phase = .run ∧
        ((l2i c = none ∧ exec (.enct c) s = answer .ack s) ∨
          ∃ x, l2i c = some x ∧ exec (.enct c) s = encryptLetter x s)) := by
  cases hp : s.phase <;> cases hc : l2i c <;>
    simp [RaisesFirst, firstFailedCheck, exec, execEnct, requirePhase, hp, hc]

theorem execRdpos_cases (r : BitVec 2) (s : State) :
    RaisesFirst (.rdpos r) s ∨
      (firstFailedCheck (.rdpos r) s.phase = none ∧
        ∃ k, rotorOfSelect r = some k ∧ exec (.rdpos r) s = answer (.val (indexCode (s.pos.get k))) s) := by
  rcases select_cases r with ⟨hr, hs⟩ | ⟨k, hr, hs⟩ <;>
    simp [RaisesFirst, firstFailedCheck, exec, execRdpos, withRotor, hr, hs]

theorem execRdst_eq (s : State) : exec .rdst s = answer (.val s.status) s := rfl

/-! ## Stepping and the pipeline -/

/-- `STEP` changes nothing but the positions. -/
theorem stepRotors_frame (s : State) : stepRotors s = { s with pos := (stepRotors s).pos } := by
  dsimp only [stepRotors]
  split <;> split <;> rfl

@[simp] theorem stepRotors_ring (s : State) : (stepRotors s).ring = s.ring := by rw [stepRotors_frame]
@[simp] theorem stepRotors_notch (s : State) : (stepRotors s).notch = s.notch := by rw [stepRotors_frame]
@[simp] theorem stepRotors_mem (s : State) : (stepRotors s).mem = s.mem := by rw [stepRotors_frame]
@[simp] theorem stepRotors_phase (s : State) : (stepRotors s).phase = s.phase := by rw [stepRotors_frame]
@[simp] theorem stepRotors_fault (s : State) : (stepRotors s).fault = s.fault := by rw [stepRotors_frame]
@[simp] theorem stepRotors_cause (s : State) : (stepRotors s).cause = s.cause := by rw [stepRotors_frame]
@[simp] theorem stepRotors_session (s : State) : (stepRotors s).session = s.session := by rw [stepRotors_frame]
@[simp] theorem stepRotors_inbox (s : State) : (stepRotors s).inbox = s.inbox := by rw [stepRotors_frame]
@[simp] theorem stepRotors_responses (s : State) : (stepRotors s).responses = s.responses := by
  rw [stepRotors_frame]

/-- The way through a rotor sees its position, its ring and one table. -/
theorem routeThrough_congr {s t : State} {k : Rotor} {tab : TableId} (hp : t.pos.get k = s.pos.get k)
    (hr : t.ring.get k = s.ring.get k) (ht : ∀ a, t.readTable tab a = s.readTable tab a) (x : Index) :
    routeThrough t k tab x = routeThrough s k tab x := by
  simp only [routeThrough, hp, hr, ht]

/-- A pass through a rotor, said on integers, is the one `routeThrough` takes. -/
theorem passes_iff (s : State) (k : Rotor) (t : TableId) (x y : Index) : s.passes k t x y ↔ routeThrough s k t x = y := by
  constructor
  · rintro ⟨c, hc, hy⟩
    unfold routeThrough
    simp only
    rw [(mod26_eq_index _ _).2 hc.symm, (mod26_eq_index _ _).2 hy.symm]
  · rintro rfl
    exact ⟨mod26 (x.val + (s.pos.get k).val - (s.ring.get k).val), by simp, by simp [routeThrough]⟩

/-- `TRANSFORM` sees the positions, the rings and the tables. -/
theorem transform_congr {s t : State} (hp : t.pos = s.pos) (hr : t.ring = s.ring)
    (ht : t.readTable = s.readTable) (x : Index) : transform t x = transform s x := by
  simp only [transform, plugMap, reflMap, fwd, bwd, routeThrough, hp, hr, ht]

end Sys2Proof.Machine
end

