-- ==== Sys2Proof/Laws/PerInstr.lean ====
section
/-! SUPPORT. A property of every command as syntax, one lemma per constructor: the word that spells it has, under the
mask of its row in the opcode map, the row's pattern (30_encoding R73). -/

namespace Sys2Proof.Laws.RowPattern

/-- The word of the command is one of its row's words. -/
def Statement (i : Instr) : Prop := encode i &&& (opcodeRow i).mask = (opcodeRow i).pattern

theorem and_eq_of_bits {w m p : Word} (h : ∀ n, n < 16 → (w.getLsbD n && m.getLsbD n) = p.getLsbD n) :
    w &&& m = p := by
  apply BitVec.eq_of_getLsbD_eq
  intro n hn
  rw [BitVec.getLsbD_and]
  exact h n hn

theorem wrw (r : BitVec 2) (i v : BitVec 5) : Statement (.wrw r i v) := by
  apply and_eq_of_bits
  intro n hn
  simp only [encode, opcodeRow, wordW, BitVec.getLsbD_append]
  interval_cases n <;> simp

theorem wrf (i v : BitVec 5) : Statement (.wrf i v) := by
  apply and_eq_of_bits
  intro n hn
  simp only [encode, opcodeRow, wordW, BitVec.getLsbD_append]
  interval_cases n <;> simp

theorem plug (a b : BitVec 5) : Statement (.plug a b) := by
  apply and_eq_of_bits
  intro n hn
  simp only [encode, opcodeRow, wordW, BitVec.getLsbD_append]
  interval_cases n <;> simp

theorem notch (r : BitVec 2) (n : BitVec 5) : Statement (.notch r n) := by
  apply and_eq_of_bits
  intro k hk
  simp only [encode, opcodeRow, wordW, BitVec.getLsbD_append]
  interval_cases k <;> simp

theorem ring (r : BitVec 2) (g : BitVec 5) : Statement (.ring r g) := by
  apply and_eq_of_bits
  intro n hn
  simp only [encode, opcodeRow, wordW, BitVec.getLsbD_append]
  interval_cases n <;> simp

theorem pos (r : BitVec 2) (p : BitVec 5) : Statement (.pos r p) := by
  apply and_eq_of_bits
  intro n hn
  simp only [encode, opcodeRow, wordW, BitVec.getLsbD_append]
  interval_cases n <;> simp

theorem build : Statement .build := rfl

theorem enc (c : Character) : Statement (.enc c) := by
  apply and_eq_of_bits
  intro n hn
  simp only [encode, opcodeRow, wordC, BitVec.getLsbD_append]
  interval_cases n <;> simp

theorem enct (c : Character) : Statement (.enct c) := by
  apply and_eq_of_bits
  intro n hn
  simp only [encode, opcodeRow, wordC, BitVec.getLsbD_append]
  interval_cases n <;> simp

theorem rdpos (r : BitVec 2) : Statement (.rdpos r) := by
  apply and_eq_of_bits
  intro n hn
  simp only [encode, opcodeRow, wordW, BitVec.getLsbD_append]
  interval_cases n <;> simp

theorem rdst : Statement .rdst := rfl

end Sys2Proof.Laws.RowPattern
end

