-- ==== Sys2Proof/Laws/Session.lean ====
section
/-! SUPPORT. What the host's lists of commands and the readers of letters give. -/

namespace Sys2Proof.Machine

/-- The commands for the rotors whose value is not the default, and no other. -/
theorem mem_nonDefaultCommands (f : Rotor → Index → Instr) (x : PerRotor Index) (i : Instr) :
    i ∈ nonDefaultCommands f x ↔ ∃ k, x.get k ≠ 0 ∧ i = f k (x.get k) := by
  simp only [nonDefaultCommands, List.mem_map, List.mem_filter, bne_iff_ne]
  constructor
  · rintro ⟨k, ⟨_, h⟩, rfl⟩
    exact ⟨k, h, rfl⟩
  · rintro ⟨k, h, rfl⟩
    exact ⟨k, ⟨by cases k <;> simp, h⟩, rfl⟩

/-- The letter of an index reads back as that index. -/
@[simp] theorem letterOf_letterChar (x : Index) : letterOf (letterChar x) = some x := by
  revert x
  decide

/-- A letter is neither a double quote nor a space. -/
theorem letterChar_ne (x : Index) : letterChar x ≠ '"' ∧ letterChar x ≠ ' ' := by
  revert x
  decide

/-- The scanner reads a quoted text whole. -/
theorem scan_inText (s t : List Char) (h : '"' ∉ s) :
    scan (s ++ ['"']) (.inText t) = some [.text (t.reverse ++ s)] := by
  induction s generalizing t with
  | nil => simp [scan, endWord]
  | cons c s ih =>
    simp only [List.mem_cons, not_or] at h
    simp [scan, Ne.symm h.1, ih _ h.2]

end Sys2Proof.Machine
end

