-- ==== Sys2Proof/Laws/Step.lean ====
section
/-! SUPPORT. What one step can do. -/

namespace Sys2Proof.Machine

/-- A step that gives a next state holds the state, carries out a reset, executes a command, or refuses a word that
spells none. -/
theorem step_cases {s t : State} (h : step s = .next t) :
    (s.inbox = [] ∧ t = s) ∨
    (∃ rest, s.inbox = .reset :: rest ∧ t = (s.setInbox rest).hostReset) ∨
    ∃ w rest, s.inbox = .command w :: rest ∧
      ((∃ i, decode w = .ok i ∧ exec i (s.setInbox rest) = .next t) ∨
        ∃ why, decode w = .error why ∧ t = (s.setInbox rest).errorAnswered .illegalCommand 1#3) := by
  unfold step at h
  split at h
  · next hi => exact .inl ⟨hi, (Host.Outcome.next.inj h).symm⟩
  · next rest hi => exact .inr (.inl ⟨rest, hi, (Host.Outcome.next.inj h).symm⟩)
  · next w rest hi =>
    refine .inr (.inr ⟨w, rest, hi, ?_⟩)
    split at h
    · next i hd => exact .inl ⟨i, hd, h⟩
    · next why hd => exact .inr ⟨why, hd, (Host.Outcome.next.inj h).symm⟩

/-- The step on a word that does not decode. -/
theorem step_of_illegal {s : State} {w : Word} {rest : List HostEvent} {why : Illegal}
    (hi : s.inbox = .command w :: rest) (hd : decode w = .error why) :
    step s = .next ((s.setInbox rest).errorAnswered .illegalCommand 1#3) := by
  unfold step
  simp only [hi, hd]
  rfl

/-- The step that `withFetchWord` prepares reads the word back as the host's next move. -/
theorem withFetchWord_next (s : State) (n w : Nat) :
    (s.withFetchWord n w).inbox = .command (BitVec.ofNat 16 (w % 2 ^ n)) :: s.inbox := rfl

end Sys2Proof.Machine
end

