-- ==== Sys2Proof/Tests/Slice0.lean ====
section
/-! SUPPORT. Tests of the model against the spec's own words and vectors (95_test_vectors), and for each statement with
hypotheses a witness that meets them. -/

namespace Sys2Proof.Machine.Tests

/-! ## Helpers -/

/-- The state a command leaves. -/
def stateOf : Result → Option State
  | .next t => some t
  | .fault _ => none
  | .refused _ => none

/-- The last response word. -/
def wordOf (r : Result) : Option Word := (stateOf r).bind fun t => t.responses.getLast?.map Response.toWord

/-- The positions left. -/
def posOf (r : Result) : Option (PerRotor Index) := (stateOf r).map State.pos

/-- A table from its 26 entries. -/
def tableOf (l : List Index) : Table := (List.finRange 26).zip l

/-- The rotor tables of the toy configurations (95_test_vectors section 2). -/
def wLeft : List Index :=
  [16, 22, 4, 17, 19, 24, 20, 8, 14, 15, 0, 18, 3, 5, 6, 7, 9, 10, 11, 25, 23, 2, 21, 1, 13, 12]

def invLeft : List Index :=
  [10, 23, 21, 12, 2, 13, 14, 15, 7, 16, 17, 18, 25, 24, 8, 9, 0, 3, 11, 4, 6, 22, 1, 20, 5, 19]

def wMiddle : List Index :=
  [15, 24, 5, 6, 2, 17, 11, 0, 14, 4, 20, 8, 3, 7, 19, 13, 18, 16, 9, 10, 23, 1, 12, 22, 21, 25]

def invMiddle : List Index :=
  [7, 21, 4, 12, 9, 2, 3, 13, 11, 18, 19, 6, 22, 15, 8, 0, 17, 5, 16, 14, 10, 24, 23, 20, 1, 25]

def wRight : List Index :=
  [12, 13, 1, 21, 2, 23, 25, 11, 10, 9, 7, 6, 5, 3, 18, 0, 15, 14, 8, 20, 24, 19, 17, 4, 22, 16]

def invRight : List Index :=
  [15, 2, 4, 13, 23, 12, 11, 10, 18, 9, 8, 7, 0, 1, 17, 16, 25, 22, 14, 21, 19, 3, 24, 5, 20, 6]

def refToy : List Index :=
  [13, 14, 15, 16, 17, 18, 19, 20, 21, 22, 23, 24, 25, 0, 1, 2, 3, 4, 5, 6, 7, 8, 9, 10, 11, 12]

/-- T0 after `BUILD`, with the inverse tables the spec prints. -/
def t0 : State :=
  { State.reset with
    phase := .run
    notch := ⟨0x80#26, 0x4#26, 0x8#26⟩
    mem :=
      { wiring := ⟨tableOf wLeft, tableOf wMiddle, tableOf wRight⟩
        inverse := ⟨tableOf invLeft, tableOf invMiddle, tableOf invRight⟩
        reflector := tableOf refToy
        plugboard := [] } }

/-- T1 after `BUILD`: rings (1, 2, 3), start (0, 1, 2), plugs A–B and H–L. -/
def t1 : State :=
  { t0 with
    ring := ⟨1, 2, 3⟩
    pos := ⟨0, 1, 2⟩
    mem := { t0.mem with plugboard := [(0, 1), (1, 0), (7, 11), (11, 7)] } }

/-! ## Well-formed commands: rotor select 3 is refused -/

theorem test_illformed_wrw : (Instr.wrw 3#2 0#5 0#5).wellFormed = false := by decide
theorem test_illformed_notch : (Instr.notch 3#2 0#5).wellFormed = false := by decide
theorem test_illformed_ring : (Instr.ring 3#2 0#5).wellFormed = false := by decide
theorem test_illformed_pos : (Instr.pos 3#2 0#5).wellFormed = false := by decide
theorem test_illformed_rdpos : (Instr.rdpos 3#2).wellFormed = false := by decide
theorem test_wellformed_wrw : (Instr.wrw 2#2 31#5 31#5).wellFormed = true := by decide

/-! ## Decoding, words of 95_test_vectors section 3.6 and of the command rules -/

theorem test_decode_wrw : decode 0x182D#16 = .ok (.wrw 2#2 1#5 13#5) := by decide
theorem test_decode_wrw_big_fields : decode 0x13FF#16 = .ok (.wrw 0#2 31#5 31#5) := by decide
theorem test_decode_wrf : decode 0x200D#16 = .ok (.wrf 0#5 13#5) := by decide
theorem test_decode_plug : decode 0x30EB#16 = .ok (.plug 7#5 11#5) := by decide
theorem test_decode_notch : decode 0x4402#16 = .ok (.notch 1#2 2#5) := by decide
theorem test_decode_ring : decode 0x541C#16 = .ok (.ring 1#2 28#5) := by decide
theorem test_decode_pos : decode 0x6815#16 = .ok (.pos 2#2 21#5) := by decide
theorem test_decode_build : decode 0x7000#16 = .ok .build := by decide
theorem test_decode_enc : decode 0x80FF#16 = .ok (.enc 0xFF#8) := by decide
theorem test_decode_enct : decode 0x905A#16 = .ok (.enct 0x5A#8) := by decide
theorem test_decode_rdpos : decode 0xA800#16 = .ok (.rdpos 2#2) := by decide
theorem test_decode_rdst : decode 0xB000#16 = .ok .rdst := by decide

theorem test_illegal_case1 : decode 0x0000#16 = .error .reservedOpcode ∧ decode 0xD123#16 = .error .reservedOpcode := by
  decide
theorem test_illegal_case2 : decode 0x1C00#16 = .error .rotorSelect ∧ decode 0xAC00#16 = .error .rotorSelect := by
  decide
theorem test_illegal_case3 : decode 0x2400#16 = .error .bits11to10 := by decide
theorem test_illegal_case4 : decode 0x4420#16 = .error .bits9to5 := by decide
theorem test_illegal_case5 : decode 0x7800#16 = .error .bits11to0 ∧ decode 0xB001#16 = .error .bits11to0 := by decide
theorem test_illegal_case6 : decode 0x8100#16 = .error .bits11to8 := by decide
theorem test_illegal_case7 : decode 0xA401#16 = .error .bits9to0 := by decide

theorem test_encode_examples : encode (.wrw 2#2 0#5 12#5) = 0x180C#16 ∧ encode (.rdpos 0#2) = 0xA000#16 ∧
    encode (.enc 0x33#8) = 0x8033#16 := by decide
theorem test_decodeTableWord_wrw : decodeTableWord 16 0x182D = some (.wrw 2#2 1#5 13#5) := by decide
theorem test_decodeTableWord_illegal : decodeTableWord 16 0xFFFF = none := by decide
theorem test_withFetchWord_runs : wordOf (step (State.reset.withFetchWord 16 0xB000)) = some 0x2000#16 := by decide

/-! ## Configuration commands and errors (95_test_vectors section 3.5) -/

/-- V5.3. -/
theorem test_wrw_writes : (stateOf (exec (.wrw 0#2 25#5 25#5) State.reset)).map (fun t => t.readTable (.wiring .left) 25) =
    some 25 := by decide
/-- V5.4. -/
theorem test_wrw_invalid : wordOf (exec (.wrw 0#2 26#5 0#5) State.reset) = some 0xF003#16 := by decide
/-- V5.9. -/
theorem test_wrf_writes : (stateOf (exec (.wrf 0#5 13#5) State.reset)).map (fun t => t.readTable .reflector 0) = some 13 := by
  decide
/-- V5.14. -/
theorem test_plug_pair : (stateOf (exec (.plug 7#5 11#5) State.reset)).map (fun t => t.mem.plugboard) =
    some [(7, 11), (11, 7)] := by decide
/-- V5.17: `PLUG 'A', 'C'` after `PLUG 'A', 'B'` leaves `PB[0] = 2`, `PB[1] = 0`, `PB[2] = 0`. -/
theorem test_plug_overlap :
    (stateOf (exec (.plug 0#5 2#5) { State.reset with mem := { State.reset.mem with plugboard := [(0, 1), (1, 0)] } })).map
      (fun t => [t.readTable .plugboard 0, t.readTable .plugboard 1, t.readTable .plugboard 2]) = some [2, 0, 0] := by
  decide
/-- V5.21. -/
theorem test_notch_adds : (stateOf (exec (.notch 2#2 16#5) { State.reset with notch := ⟨0, 0, 8#26⟩ })).map
    (fun t => t.notch.right) = some 0x10008#26 := by decide
/-- V5.26. -/
theorem test_ring_reduces : (stateOf (exec (.ring 1#2 28#5) State.reset)).map (fun t => t.ring) = some ⟨0, 2, 0⟩ := by
  decide
/-- V5.29. -/
theorem test_pos_reduces : posOf (exec (.pos 2#2 31#5) State.reset) = some ⟨0, 0, 5⟩ := by decide
/-- V5.30. -/
theorem test_pos_refused_in_run : wordOf (exec (.pos 2#2 1#5) t0) = some 0xF002#16 := by decide
/-- V5.31, and the entry `INV[R][13] = 1` of the toy table (44_configuration R187). -/
theorem test_build_inverse : (stateOf (exec .build { t0 with phase := .cfg, mem := { t0.mem with inverse := ⟨[], [], []⟩ } })).map
    (fun t => (t.phase, t.readTable (.inverse .right) 13)) = some (.run, 1) := by decide +kernel
/-- V5.32. -/
theorem test_build_once : wordOf (exec .build t0) = some 0xF002#16 := by decide
/-- V5.45. -/
theorem test_rdst_reads : wordOf (exec .rdst { State.reset with fault := true, cause := 2#3 }) = some 0x200A#16 := by
  decide
/-- V5.46: `CAUSE` keeps the first error's code. -/
theorem test_cause_first : (stateOf (exec (.wrw 0#2 0#5 31#5) { State.reset with fault := true, cause := 2#3 })).map
    (fun t => (t.fault, t.cause)) = some (true, 2#3) := by decide
/-- 44_configuration R188: at "AEW" `RDPOS M` answers 0x2004. -/
theorem test_rdpos_reads : wordOf (exec (.rdpos 1#2) { State.reset with pos := ⟨0, 4, 22⟩ }) = some 0x2004#16 := by decide
/-- V5.48. -/
theorem test_step_illegal_word : wordOf (step (State.reset.presentWord 0xC000#16)) = some 0xF001#16 := by decide
/-- 70_reset R261: a reset brings the block back and gives no response. -/
theorem test_step_reset : (stateOf (step { t1 with inbox := [.reset] })).map
    (fun t => (t.phase, t.pos, t.mem, t.responses)) = some (.cfg, ⟨0, 0, 0⟩, State.reset.mem, []) := by decide

/-! ## Codec, rotor, stepping (95_test_vectors sections 3.1 to 3.3) -/

/-- V1.4, V1.5, V1.7, V1.8, V1.10. -/
theorem test_isLetter_edges : [0x40#8, 0x41#8, 0x5A#8, 0x5B#8, 0x61#8].map isLetter = [false, true, true, false, false] := by
  decide
/-- V1.19, V1.21, V1.22, V1.25. -/
theorem test_i2l_reduces : [26, -1, -25, 76].map i2l = [0x41#8, 0x5A#8, 0x42#8, 0x59#8] := by decide
/-- V2.3 and V2.4. -/
theorem test_fwd_wraps : fwd { t0 with ring := ⟨0, 0, 1⟩ } .right 0 = 17 ∧ fwd { t0 with pos := ⟨0, 0, 25⟩ } .right 25 = 23 := by
  decide
/-- V2.6. -/
theorem test_bwd : bwd { t0 with pos := ⟨0, 0, 13⟩, ring := ⟨0, 0, 4⟩ } .right 7 = 16 := by decide
/-- V3.5: the double step, with the left and right rotors wrapping. -/
theorem test_step_double : (stepRotors { t0 with pos := ⟨25, 2, 25⟩ }).pos = ⟨0, 3, 0⟩ := by decide
/-- V3.4: both conditions at once move the middle rotor once. -/
theorem test_step_both : (stepRotors { t0 with pos := ⟨0, 2, 3⟩ }).pos = ⟨1, 3, 4⟩ := by decide
/-- V3.18: the left rotor's own notch does nothing. -/
theorem test_step_left_notch : (stepRotors { t0 with pos := ⟨7, 1, 0⟩ }).pos = ⟨7, 1, 1⟩ := by decide

/-! ## Encryption (95_test_vectors section 3.4) -/

/-- V4.6, first letter. -/
theorem test_enc_letter : wordOf (exec (.enc 0x41#8) t0) = some 0x104C#16 ∧ posOf (exec (.enc 0x41#8) t0) = some ⟨0, 0, 1⟩ := by
  decide
/-- V5.37. -/
theorem test_enc_nonletter : wordOf (exec (.enc 0x33#8) t0) = some 0x1033#16 ∧ posOf (exec (.enc 0x33#8) t0) = some ⟨0, 0, 0⟩ := by
  decide
/-- V4.4, third letter: rings, plugs and a double step. -/
theorem test_enct_letter : wordOf (exec (.enct 0x4C#8) { t1 with pos := ⟨0, 2, 4⟩ }) = some 0x1044#16 ∧
    posOf (exec (.enct 0x4C#8) { t1 with pos := ⟨0, 2, 4⟩ }) = some ⟨1, 3, 5⟩ := by decide +kernel
/-- V5.38. -/
theorem test_enct_nonletter : wordOf (exec (.enct 0x33#8) t0) = some 0x0000#16 := by decide

/-! ## Table forms -/

theorem test_t1_canonical : t1.mem.wf := by decide +kernel

/-! ## Witnesses: T1 is well formed, built and meets the invariant -/

theorem t1_left_permutation : isPermutation (t1.readTable (.wiring .left)) := by decide +kernel
theorem t1_middle_permutation : isPermutation (t1.readTable (.wiring .middle)) := by decide +kernel
theorem t1_right_permutation : isPermutation (t1.readTable (.wiring .right)) := by decide +kernel

theorem t1_wfw (k : Rotor) : t1.WFW k := by
  cases k
  · exact ⟨by decide +kernel, t1_left_permutation⟩
  · exact ⟨by decide +kernel, t1_middle_permutation⟩
  · exact ⟨by decide +kernel, t1_right_permutation⟩

theorem t1_wf : t1.WF :=
  ⟨t1_wfw, ⟨by decide +kernel, by decide +kernel⟩, by unfold State.WFPB; decide +kernel⟩

theorem t1_inverseBuilt : t1.inverseBuilt := by
  intro _ k
  cases k <;> exact ⟨by decide +kernel, fun _ => by decide +kernel⟩

theorem t1_inv : t1.Inv := ⟨test_t1_canonical, by unfold State.statusLegal; decide, t1_inverseBuilt⟩

/-- T1 about to be given the word `w`. -/
def t1With (w : Word) : State := t1.presentWord w

/-- The state after reset about to be given the word `w`. -/
def resetWith (w : Word) : State := State.reset.presentWord w

/-! ## Witnesses for the hypotheses of the statements -/

theorem witness_DecodeOfEncode : (Instr.wrw 2#2 31#5 31#5).wellFormed = true := by decide

theorem witness_EncodeOfDecode : decode 0x182D#16 = .ok (.wrw 2#2 1#5 13#5) := by decide

theorem witness_MustBeZeroBitsChecked : opcodeRow (.plug 0 0) ∈ opcodeTable ∧
    opField 0x3400#16 = opField (opcodeRow (.plug 0 0)).pattern ∧
    0x3400#16 &&& (opcodeRow (.plug 0 0)).mask ≠ (opcodeRow (.plug 0 0)).pattern ∧
    (resetWith 0x3400#16).inbox = [.command 0x3400#16] := by decide

theorem witness_OpcodeMapSelectsCommand : decode 0x9000#16 = .ok (.enct 0#8) ∧
    opcodeRow (.enct 0) ∈ opcodeTable ∧ (opcodeRow (.enct 0)).accepts 0x90FF#16 = true := by decide

theorem witness_StepRunsDecodedCommand : (resetWith 0xB000#16).inbox = .command 0xB000#16 :: [] ∧
    decode 0xB000#16 = .ok .rdst := by decide

theorem witness_IllegalWordAnswered : (resetWith 0xFFFF#16).inbox = .command 0xFFFF#16 :: [] ∧
    ∀ row ∈ opcodeTable, row.accepts 0xFFFF#16 = false := by decide

theorem witness_HostMovesBetweenCommands : ({ t1 with inbox := [.reset] } : State).inbox = .reset :: [] ∧
    t1.inbox = [] := by decide

theorem witness_ResetValues : ∃ t : State, t = State.reset ∨ ∃ s : State, t = s.hostReset := ⟨t1.hostReset, .inr ⟨t1, rfl⟩⟩

theorem witness_StepKeepsInvariant : t1.Inv ∧ ∃ t, step t1 = .next t := ⟨t1_inv, _, rfl⟩

/-- CFG and RUN states for the command statements, and fields at their boundaries. -/
theorem witness_commands_cfg_run : State.reset.phase = .cfg ∧ t1.phase = .run ∧ (2#2 : BitVec 2) ≠ 3#2 ∧
    25 < (26#5 : BitVec 5).toNat ∧ 25 < (31#5 : BitVec 5).toNat := by decide

theorem witness_WrfWritesReflectorEntry : opField 0x2400#16 = 2#4 ∧ rField 0x2400#16 ≠ 0#2 := by decide
theorem witness_PlugConnectsPair : opField 0x3C00#16 = 3#4 ∧ rField 0x3C00#16 ≠ 0#2 := by decide
theorem witness_NotchAddsIndex : opField 0x4C00#16 = 4#4 ∧ rField 0x4C00#16 = 3#2 ∧ iField 0x4020#16 ≠ 0#5 := by decide
theorem witness_RingStoresResidue : opField 0x5C00#16 = 5#4 ∧ rField 0x5C00#16 = 3#2 ∧ iField 0x5200#16 ≠ 0#5 := by decide
theorem witness_PosStoresResidue : opField 0x6C00#16 = 6#4 ∧ rField 0x6C00#16 = 3#2 ∧ iField 0x6200#16 ≠ 0#5 := by decide

theorem witness_BuildComputesInverses : opField 0x7001#16 = 7#4 ∧ (0x7001#16).extractLsb' 0 12 ≠ 0#12 ∧
    ({ t1 with phase := .cfg } : State).phase = .cfg ∧
    isPermutation (({ t1 with phase := .cfg } : State).readTable (.wiring .left)) :=
  ⟨by decide, by decide, rfl, t1_left_permutation⟩

theorem witness_EncAnswers : t1.phase = .run ∧ (0x40#8).toNat < 0x41 ∧ 0x5A < (0x5B#8).toNat ∧
    (0x41#8).toNat = 0x41 + (0 : Index).val ∧ (0x5A#8).toNat = 0x41 + (25 : Index).val ∧ State.reset.phase = .cfg := by
  decide

theorem witness_EnctAnswers : t1.phase = .run ∧ (0x00#8).toNat < 0x41 ∧ 0x5A < (0xFF#8).toNat ∧
    (0x41#8).toNat = 0x41 + (0 : Index).val ∧ (0x5A#8).toNat = 0x41 + (25 : Index).val ∧ State.reset.phase = .cfg := by
  decide

theorem witness_RdposReadsPosition : opField 0xAC00#16 = 0xA#4 ∧ rField 0xAC00#16 = 3#2 ∧
    (0xA001#16).extractLsb' 0 10 ≠ 0#10 := by decide

theorem witness_RdstReadsStatus : opField 0xB800#16 = 0xB#4 ∧ (0xB800#16).extractLsb' 0 12 ≠ 0#12 := by decide

theorem witness_EveryCommandAnswersOnce : (t1With 0x8041#16).inbox = .command 0x8041#16 :: [] ∧ t1.phase = .run := by
  decide

theorem witness_ErrorsChangeOnlyStatus : (resetWith 0x8041#16).inbox = .command 0x8041#16 :: [] ∧
    ∃ t, step (resetWith 0x8041#16) = .next t ∧ t.responses = (resetWith 0x8041#16).responses ++ [.err .wrongPhase] :=
  ⟨rfl, _, rfl, rfl⟩

theorem witness_FirstFailedCheckDecides : (resetWith 0xC000#16).inbox = .command 0xC000#16 :: [] ∧
    ∀ i, decode 0xC000#16 ≠ .ok i := by
  refine ⟨rfl, fun i h => ?_⟩
  have hd : decode 0xC000#16 = .error .reservedOpcode := by decide
  rw [hd] at h
  cases h

theorem witness_WrongPhaseRefused : (Instr.wrw 2#2 0#5 0#5).wellFormed = true ∧ (Instr.enc 0x41#8).wellFormed = true := by
  decide

theorem witness_InvalidSymbolRefused : (Instr.wrw 2#2 26#5 0#5).wellFormed = true ∧ State.reset.phase = .cfg ∧
    t1.phase = .run ∧ (∃ t, exec (.enc 0x41#8) t1 = .next t) ∧
    ∃ t, exec (.notch 0#2 26#5) State.reset = .next t ∧ t.responses = State.reset.responses ++ [.err .invalidSymbol] :=
  ⟨by decide, rfl, rfl, ⟨_, rfl⟩, _, rfl, rfl⟩

theorem witness_FaultRecordIsSticky_faulted : ({ resetWith 0x8041#16 with fault := true, cause := 1#3 } : State).fault = true ∧
    ∃ t r, step { resetWith 0x8041#16 with fault := true, cause := 1#3 } = .next t ∧
      t.responses = (resetWith 0x8041#16).responses ++ [r] := ⟨rfl, _, _, rfl, rfl⟩

theorem witness_FaultRecordIsSticky_first : (resetWith 0x8041#16).fault = false ∧
    ∃ t, step (resetWith 0x8041#16) = .next t ∧ t.responses = (resetWith 0x8041#16).responses ++ [.err .wrongPhase] :=
  ⟨rfl, _, rfl, rfl⟩

theorem witness_FaultRecordIsSticky_noError : ∃ t, step (resetWith 0xB000#16) = .next t ∧
    t.responses = (resetWith 0xB000#16).responses ++ [.val 0#5] ∧ ∀ e, Response.val 0#5 ≠ .err e :=
  ⟨_, rfl, rfl, fun _ h => by cases h⟩

theorem witness_FaultRecordIsSticky_unread : Instr.enc 0x41#8 ≠ .rdst ∧ ∃ t, exec (.enc 0x41#8) t1 = .next t :=
  ⟨by decide, _, rfl⟩

theorem witness_MalformedConfigurationNeverRaised : (t1With 0x8041#16).inbox = .command 0x8041#16 :: [] ∧
    ∃ t, step (t1With 0x8041#16) = .next t := ⟨rfl, _, rfl⟩

theorem witness_PhaseChangesOnlyByBuildOrReset :
    (∃ t, step (resetWith 0x7000#16) = .next t ∧ t.phase ≠ (resetWith 0x7000#16).phase) ∧
    ∃ t, step { t1 with inbox := [.reset] } = .next t ∧ t.phase ≠ t1.phase :=
  ⟨⟨_, rfl, by decide⟩, _, rfl, by decide⟩

theorem witness_RunPhaseFreezesConfiguration : (t1With 0x8041#16).phase = .run ∧
    (t1With 0x8041#16).inbox = .command 0x8041#16 :: [] ∧
    ∃ t, step (t1With 0x8041#16) = .next t ∧ t.pos ≠ (t1With 0x8041#16).pos := ⟨rfl, rfl, _, rfl, by decide +kernel⟩

theorem witness_RunPhaseFreezesConfiguration_error :
    ∃ t, step (t1With 0x6801#16) = .next t ∧ t.fault ≠ (t1With 0x6801#16).fault := ⟨_, rfl, by decide⟩

theorem witness_StepReadsOnlyPositionsAndNotches : t0.pos.middle = ({ t0 with ring := ⟨1, 2, 3⟩, phase := .cfg } : State).pos.middle ∧
    t0.pos.right = ({ t0 with ring := ⟨1, 2, 3⟩, phase := .cfg } : State).pos.right ∧
    t0.notch.middle = ({ t0 with ring := ⟨1, 2, 3⟩, phase := .cfg } : State).notch.middle ∧
    t0.notch.right = ({ t0 with ring := ⟨1, 2, 3⟩, phase := .cfg } : State).notch.right := ⟨rfl, rfl, rfl, rfl⟩

theorem witness_StepWithEmptyNotches : (∀ x, State.reset.inNotch .middle x = false) ∧
    ∀ x, State.reset.inNotch .right x = false := by decide +kernel

theorem witness_StepWithFullNotches :
    (∀ x, ({ State.reset with notch := ⟨0, 0x3FFFFFF#26, 0x3FFFFFF#26⟩ } : State).inNotch .middle x = true) ∧
    ∀ x, ({ State.reset with notch := ⟨0, 0x3FFFFFF#26, 0x3FFFFFF#26⟩ } : State).inNotch .right x = true := by
  decide +kernel

/-- P2: notches 2 and 3, positions (0, 1, 3). -/
theorem witness_DoubleStepOverTwoLetters : ({ t0 with pos := ⟨0, 1, 3⟩ } : State).phase = .run ∧
    isLetterCommand (.enc 0x41#8) = true ∧ isLetterCommand (.enct 0x5A#8) = true ∧
    ({ t0 with pos := ⟨0, 1, 3⟩ } : State).inNotch .middle 2 = true ∧ (1 : Index) = 2 - 1 ∧
    ({ t0 with pos := ⟨0, 1, 3⟩ } : State).inNotch .right 3 = true ∧
    ({ t0 with pos := ⟨0, 1, 3⟩ } : State).inNotch .middle (2 - 1) = false ∧
    ({ t0 with pos := ⟨0, 1, 3⟩ } : State).inNotch .right (3 + 1) = false := by decide +kernel

/-- V2.3: the raw value -1 reduces to contact 25. -/
theorem witness_RotorRoutingFormulas : ((25 : Index).val : Int) = (((0 : Index).val : Int) + (t1.pos.get .left).val -
    (t1.ring.get .left).val) % 26 := by decide

theorem witness_ForwardBackwardInverse : isPermutation (t1.readTable (.wiring .right)) ∧
    ∀ i, t1.readTable (.inverse .right) (t1.readTable (.wiring .right) i) = i :=
  ⟨t1_right_permutation, (t1_inverseBuilt rfl .right).2 t1_right_permutation⟩

/-- V2.2 and V2.5: offsets 1 - 0 and 0 - 25. -/
theorem witness_RoutingDependsOnOffset :
    (∀ a, ({ t0 with ring := ⟨0, 0, 25⟩ } : State).readTable (.wiring .right) a =
      ({ t0 with pos := ⟨0, 0, 1⟩ } : State).readTable (.wiring .right) a) ∧
    (∀ a, ({ t0 with ring := ⟨0, 0, 25⟩ } : State).readTable (.inverse .right) a =
      ({ t0 with pos := ⟨0, 0, 1⟩ } : State).readTable (.inverse .right) a) ∧ (0 : Index) - 25 = 1 - 0 :=
  ⟨fun _ => rfl, fun _ => rfl, by decide⟩

theorem witness_CodecRoundTrip : isLetter 0x41#8 = true ∧ isLetter 0x5A#8 = true := by decide

theorem witness_TransformIsInvolution : t1.phase = .run ∧ t1.inverseBuilt ∧ t1.WF := ⟨rfl, t1_inverseBuilt, t1_wf⟩

theorem witness_LetterNeverEncryptsToItself : t1.phase = .run ∧ t1.inverseBuilt ∧ t1.WF ∧ isLetter 0x41#8 = true ∧
    isLetter 0x40#8 = false := ⟨rfl, t1_inverseBuilt, t1_wf, by decide, by decide⟩

/-- A second machine of another session. -/
theorem witness_TextReciprocity : t1.phase = .run ∧ t1.inverseBuilt ∧ t1.WF ∧
    ({ t1 with session := 5 } : State).phase = .run ∧ ({ t1 with session := 5 } : State).pos = t1.pos ∧
    ({ t1 with session := 5 } : State).ring = t1.ring ∧ ({ t1 with session := 5 } : State).notch = t1.notch ∧
    ({ t1 with session := 5 } : State).mem = t1.mem := ⟨rfl, t1_inverseBuilt, t1_wf, rfl, rfl, rfl, rfl, rfl⟩

theorem witness_EnctMatchesEnc : (∃ t, exec (.enc 0x41#8) t1 = .next t) ∧ isLetter 0x41#8 = true ∧
    (∃ t, exec (.enc 0x41#8) State.reset = .next t) ∧ State.reset.phase = .cfg ∧
    (∃ t, exec (.enc 0x33#8) t1 = .next t) ∧ isLetter 0x33#8 = false ∧ t1.phase = .run :=
  ⟨⟨_, rfl⟩, by decide, ⟨_, rfl⟩, rfl, ⟨_, rfl⟩, by decide, rfl⟩

/-- For the statements whose one premise is the RUN phase. -/
theorem witness_run_phase : t1.phase = .run ∧ isLetter 0x41#8 = true := by decide

/-- Three pairs, a `PLUG` of a letter again that is refused for its other field, and one that is refused after `BUILD`. -/
theorem witness_PlugboardInvolution :
    plugsDisjoint [.plug 0#5 1#5, .plug 7#5 11#5, .plug 25#5 25#5, .plug 0#5 31#5, .build, .plug 0#5 2#5] ∧
    ∃ t, execAll [.plug 0#5 1#5, .plug 7#5 11#5, .plug 25#5 25#5, .plug 0#5 31#5, .build, .plug 0#5 2#5] State.reset =
      .next t :=
  ⟨by simp [plugsDisjoint, cfgPhaseCommands, plugLetters], _, rfl⟩

theorem witness_WrittenTablesDetermineTheRun : t1.inverseBuilt ∧ (∀ k, t1.WFW k) ∧
    (∀ a, t1.mem.isWritten .reflector a = true) ∧ ∃ t, exec (.enc 0x41#8) t1 = .next t :=
  ⟨t1_inverseBuilt, t1_wfw, t1_wf.2.1.1, _, rfl⟩

/-- T1 as a configuration (00_scope R9). -/
def t1Configuration : Configuration where
  wiring := ⟨wLeft, wMiddle, wRight⟩
  notch := ⟨[7], [2], [3]⟩
  ring := ⟨1, 2, 3⟩
  start := ⟨0, 1, 2⟩
  reflector := refToy
  plugs := [(0, 1), (7, 11)]

/-- 95_test_vectors section 2: T1 is 115 commands with `BUILD`, and the words of its tail. -/
theorem test_t1_commands : t1Configuration.commands.length = 114 ∧
    (t1Configuration.commands.drop 104).map encode =
      [0x4007#16, 0x4402#16, 0x4803#16, 0x5001#16, 0x5402#16, 0x5803#16, 0x6401#16, 0x6802#16, 0x3001#16, 0x30EB#16] := by
  decide

/-- 95_test_vectors section 2: T0, with rings and positions at their default and no pair, is 108 with `BUILD`. -/
theorem test_t0_commands :
    { t1Configuration with ring := ⟨0, 0, 0⟩, start := ⟨0, 0, 0⟩, plugs := [] }.commands.length = 107 := by decide

/-- The example of 43_pipeline R162: T0 at positions (0, 0, 1), the letter of index 0; `t0` steps to those positions. -/
theorem witness_LetterTakesNineLookups : t0.phase = .run ∧ (0x41#8).toNat = 0x41 + (0 : Index).val ∧
    (stepRotors t0).letterPath 0 #v[0, 12, 3, 17, 4, 2, 4, 11, 11] :=
  ⟨rfl, rfl, by decide, ⟨1, by decide⟩, ⟨12, by decide⟩, ⟨3, by decide⟩, by decide, ⟨4, by decide⟩, ⟨2, by decide⟩,
    ⟨5, by decide⟩, by decide⟩

theorem witness_LoadedConfiguration : (∀ k, (t1Configuration.wiring.get k).length = 26) ∧
    t1Configuration.reflector.length = 26 ∧
    t1Configuration.plugs.Pairwise (fun p q => p.1 ≠ q.1 ∧ p.1 ≠ q.2 ∧ p.2 ≠ q.1 ∧ p.2 ≠ q.2) := by
  refine ⟨fun k => by cases k <;> rfl, rfl, by simp [t1Configuration]⟩

/-! ## The assembler notation (the examples of 30_encoding R86 and R87) -/

theorem test_assemble_wrw : assemble ["WRW R, 0, 12".toList] = some [0x180C#16] := by decide
theorem test_assemble_plug : assemble ["PLUG 'A', 'B'".toList] = some [0x3001#16] := by decide
theorem test_assemble_notch : assemble ["NOTCH M, 2 ; comment".toList] = some [0x4402#16] := by decide
theorem test_assemble_enc : assemble ["ENC '3'".toList, "ENC 0x33".toList] = some [0x8033#16, 0x8033#16] := by decide
theorem test_assemble_rdpos : assemble ["RDPOS L".toList] = some [0xA000#16] := by decide
theorem test_assemble_start : assemble ["START \"ADV\"".toList] = some [0x6000#16, 0x6403#16, 0x6815#16] := by decide
theorem test_assemble_plugs : assemble ["PLUGS \"HL AB\"".toList] = some [0x30EB#16, 0x3001#16] := by decide
theorem test_assemble_illegal : assemble ["NOTCH M, 32".toList] = none ∧ assemble ["WRF 0".toList] = none := by decide

theorem witness_PseudoInstructionLines_tables : wLeft.length = 26 ∧ ('L', 0#2) ∈ [('L', 0#2), ('M', 1#2), ('R', 2#2)] ∧
    ∀ c ∈ ['A', '3', ';'], c.toNat < 256 := ⟨rfl, by simp, by simp⟩

theorem witness_PseudoInstructionLines : '"' ∉ ['A', 'B', '3', ';', 'C'] ∧ ('R', Rotor.right) ∈ [('L', Rotor.left), ('M', .middle), ('R', .right)] := by
  decide

end Sys2Proof.Machine.Tests
end

section
/-! Proofs of the statements about the state: its reset values, and what the RUN phase freezes. -/

namespace Sys2Proof.Machine

/-! ## The values after reset (10_state R39) -/

/-- At the start as after a reset event, only the model's own three fields can differ from `State.reset`. -/
theorem reset_or_hostReset_eq {t : State} (h : t = State.reset ∨ ∃ s : State, t = s.hostReset) :
    ∃ n l rs, t = { State.reset with session := n, inbox := l, responses := rs } := by
  rcases h with rfl | ⟨s, rfl⟩
  · exact ⟨0, [], [], rfl⟩
  · exact ⟨s.session + 1, s.inbox, s.responses, rfl⟩

theorem reset_pos_get (k : Rotor) : State.reset.pos.get k = 0 := by cases k <;> rfl

theorem reset_ring_get (k : Rotor) : State.reset.ring.get k = 0 := by cases k <;> rfl

theorem reset_notch_get (k : Rotor) : State.reset.notch.get k = 0#26 := by cases k <;> rfl

/-- Settles O10: the registers hold literals, and a plugboard that lists nothing reads as the identity. -/
theorem resetValues : Obligations.ResetValues := by
  intro t ht
  obtain ⟨n, l, rs, rfl⟩ := reset_or_hostReset_eq ht
  refine ⟨rfl, rfl, rfl, fun k => ⟨reset_pos_get k, reset_ring_get k⟩, fun k x => ?_, fun i => rfl⟩
  simp [State.inNotch, reset_notch_get]

/-! ## What a command can do in the RUN phase (10_state R42) -/

/-- In the RUN phase a command whose only effect is in the CFG phase raises its error. -/
theorem raisesFirst_of_run {i : Instr} {s : State} {effect : Prop} (hp : s.phase = .run)
    (h : RaisesFirst i s ∨ (firstFailedCheck i s.phase = none ∧ s.phase = .cfg ∧ effect)) : RaisesFirst i s := by
  rcases h with h | ⟨-, hcfg, -⟩
  · exact h
  · rw [hp] at hcfg
    cases hcfg

theorem isLetter_of_l2i {c : Character} {x : Index} (h : l2i c = some x) : isLetter c = true := by
  cases hl : isLetter c with
  | true => rfl
  | false => simp [l2i_of_nonletter hl] at h

/-- In the RUN phase a command raises an error, answers at the state as it is, or encrypts a letter. -/
theorem exec_run_cases (i : Instr) {s : State} (hp : s.phase = .run) :
    RaisesFirst i s ∨ (∃ r, exec i s = answer r s) ∨
      (isLetterCommand i = true ∧ ∃ x, exec i s = encryptLetter x s) := by
  cases i with
  | wrw r a v => exact .inl (raisesFirst_of_run hp (execWrw_cases r a v s))
  | wrf a v => exact .inl (raisesFirst_of_run hp (execWrf_cases a v s))
  | plug a b => exact .inl (raisesFirst_of_run hp (execPlug_cases a b s))
  | notch r n => exact .inl (raisesFirst_of_run hp (execNotch_cases r n s))
  | ring r g => exact .inl (raisesFirst_of_run hp (execRing_cases r g s))
  | pos r p => exact .inl (raisesFirst_of_run hp (execPos_cases r p s))
  | build => exact .inl (raisesFirst_of_run hp (execBuild_cases s))
  | enc c =>
    rcases execEnc_cases c s with h | ⟨-, -, ⟨-, h⟩ | ⟨x, hx, h⟩⟩
    · exact .inl h
    · exact .inr (.inl ⟨_, h⟩)
    · exact .inr (.inr ⟨isLetter_of_l2i hx, x, h⟩)
  | enct c =>
    rcases execEnct_cases c s with h | ⟨-, -, ⟨-, h⟩ | ⟨x, hx, h⟩⟩
    · exact .inl h
    · exact .inr (.inl ⟨_, h⟩)
    · exact .inr (.inr ⟨isLetter_of_l2i hx, x, h⟩)
  | rdpos r =>
    rcases execRdpos_cases r s with h | ⟨-, k, -, h⟩
    · exact .inl h
    · exact .inr (.inl ⟨_, h⟩)
  | rdst => exact .inr (.inl ⟨_, execRdst_eq s⟩)

/-- The state a command word leaves in the RUN phase: an error recorded and reported, a response and no more, or the
rotors stepped by a letter and a response. -/
theorem step_run_cases {s t : State} {w : Word} {rest : List HostEvent} (hp : s.phase = .run)
    (hi : s.inbox = .command w :: rest) (h : step s = .next t) :
    (∃ e, t = ((s.setInbox rest).recordError e).respond (.err e)) ∨ (∃ r, t = (s.setInbox rest).respond r) ∨
      ((∃ i, decode w = .ok i ∧ isLetterCommand i = true) ∧ ∃ r, t = (stepRotors (s.setInbox rest)).respond r) := by
  rcases step_cases h with ⟨hi', -⟩ | ⟨rest', hi', -⟩ | ⟨w', rest', hi', hstep⟩
  · simp [hi] at hi'
  · simp [hi] at hi'
  · obtain ⟨rfl, rfl⟩ : w = w' ∧ rest = rest' := by simpa [hi] using hi'
    rcases hstep with ⟨i, hd, hx⟩ | ⟨why, -, rfl⟩
    · have hp' : (s.setInbox rest).phase = .run := hp
      rcases exec_run_cases i hp' with ⟨e, -, he⟩ | ⟨r, hr⟩ | ⟨hl, x, hr⟩
      · exact .inl ⟨e, Host.Outcome.next.inj (hx.symm.trans he)⟩
      · exact .inr (.inl ⟨r, Host.Outcome.next.inj (hx.symm.trans hr)⟩)
      · exact .inr (.inr ⟨⟨i, hd, hl⟩, _, Host.Outcome.next.inj (hx.symm.trans hr)⟩)
    · exact .inl ⟨.illegalCommand, rfl⟩

/-- Settles O33: of the three states a command word can leave in RUN, only the one of a letter has other positions, and
only the one of an error another `FAULT` or `CAUSE`. -/
theorem runPhaseFreezesConfiguration : Obligations.RunPhaseFreezesConfiguration := by
  intro s t w rest hp hi h
  rcases step_run_cases hp hi h with ⟨e, rfl⟩ | ⟨r, rfl⟩ | ⟨hletter, r, rfl⟩
  · simp [hp]
  · simp [hp]
  · simp [hp, hletter]

end Sys2Proof.Machine
end

section
/-! Proof of the statement about the must-be-zero bits: a word that decodes is the word of its command, so it has its
row's pattern under the row's mask (30_encoding R72 to R74). -/

namespace Sys2Proof

/-! ## A format that decodes a word spells the word back -/

@[simp] theorem legalIf_eq_ok {ok : Bool} {why : Illegal} {rest : Except Illegal Instr} {i : Instr} :
    legalIf ok why rest = .ok i ↔ ok = true ∧ rest = .ok i := by
  cases ok <;> simp [legalIf]

section Formats

variable {w : Word} {op : BitVec 4} {i : Instr}

theorem encode_of_decodeW {f : BitVec 2 → BitVec 5 → BitVec 5 → Instr} (hop : opField w = op)
    (hf : ∀ r x y, encode (f r x y) = wordW op r x y) (h : decodeW w f = .ok i) : encode i = w := by
  obtain ⟨-, rfl⟩ : _ ∧ f (rField w) (iField w) (vField w) = i := by simpa [decodeW] using h
  rw [hf, ← hop, wordW_fields]

theorem encode_of_decodeT {f : BitVec 5 → BitVec 5 → Instr} (hop : opField w = op)
    (hf : ∀ x y, encode (f x y) = wordW op 0#2 x y) (h : decodeT w f = .ok i) : encode i = w := by
  obtain ⟨hr, rfl⟩ : rField w = 0#2 ∧ f (iField w) (vField w) = i := by simpa [decodeT] using h
  rw [hf, ← hop, ← hr, wordW_fields]

theorem encode_of_decodeR {f : BitVec 2 → BitVec 5 → Instr} (hop : opField w = op)
    (hf : ∀ r x, encode (f r x) = wordW op r 0#5 x) (h : decodeR w f = .ok i) : encode i = w := by
  obtain ⟨hi, -, rfl⟩ : iField w = 0#5 ∧ _ ∧ f (rField w) (vField w) = i := by simpa [decodeR] using h
  rw [hf, ← hop, ← hi, wordW_fields]

theorem encode_of_decodeQ {f : BitVec 2 → Instr} (hop : opField w = op)
    (hf : ∀ r, encode (f r) = wordW op r 0#5 0#5) (h : decodeQ w f = .ok i) : encode i = w := by
  obtain ⟨hz, -, rfl⟩ : w.extractLsb' 0 10 = 0#10 ∧ _ ∧ f (rField w) = i := by simpa [decodeQ] using h
  obtain ⟨hi, hv⟩ := fields_of_low10 hz
  calc encode (f (rField w)) = wordW (opField w) (rField w) (iField w) (vField w) := by rw [hf, hop, hi, hv]
    _ = w := wordW_fields w

/-- Twelve low zeros are a zero rotor select above ten low zeros. -/
theorem rField_and_low10_of_low12 (h : w.extractLsb' 0 12 = 0#12) : rField w = 0#2 ∧ w.extractLsb' 0 10 = 0#10 := by
  have hr : (w.extractLsb' 0 12).extractLsb' 10 2 = rField w := by
    rw [BitVec.extractLsb'_extractLsb'_of_le (by decide), rField]
  have hlow : (w.extractLsb' 0 12).extractLsb' 0 10 = w.extractLsb' 0 10 := by
    rw [BitVec.extractLsb'_extractLsb'_of_le (by decide)]
  rw [← hr, ← hlow, h]
  decide

theorem encode_of_decodeZ {j : Instr} (hop : opField w = op) (hj : encode j = wordW op 0#2 0#5 0#5)
    (h : decodeZ w j = .ok i) : encode i = w := by
  obtain ⟨hz, rfl⟩ : w.extractLsb' 0 12 = 0#12 ∧ j = i := by simpa [decodeZ] using h
  obtain ⟨hr, hlow⟩ := rField_and_low10_of_low12 hz
  obtain ⟨hi, hv⟩ := fields_of_low10 hlow
  calc encode j = wordW (opField w) (rField w) (iField w) (vField w) := by rw [hj, hop, hr, hi, hv]
    _ = w := wordW_fields w

theorem encode_of_decodeC {f : Character → Instr} (hop : opField w = op) (hf : ∀ c, encode (f c) = wordC op c)
    (h : decodeC w f = .ok i) : encode i = w := by
  obtain ⟨hz, rfl⟩ : w.extractLsb' 8 4 = 0#4 ∧ f (cField w) = i := by simpa [decodeC] using h
  rw [hf, ← hop, wordC_fields w hz]

/-- A word that decodes is the word of its command: no bit is ignored. -/
theorem encode_of_decode (h : decode w = .ok i) : encode i = w := by
  unfold decode at h
  split at h
  · next hop => exact encode_of_decodeW hop (fun _ _ _ => rfl) h
  · next hop => exact encode_of_decodeT hop (fun _ _ => rfl) h
  · next hop => exact encode_of_decodeT hop (fun _ _ => rfl) h
  · next hop => exact encode_of_decodeR hop (fun _ _ => rfl) h
  · next hop => exact encode_of_decodeR hop (fun _ _ => rfl) h
  · next hop => exact encode_of_decodeR hop (fun _ _ => rfl) h
  · next hop => exact encode_of_decodeZ hop rfl h
  · next hop => exact encode_of_decodeC hop (fun _ => rfl) h
  · next hop => exact encode_of_decodeC hop (fun _ => rfl) h
  · next hop => exact encode_of_decodeQ hop (fun _ => rfl) h
  · next hop => exact encode_of_decodeZ hop rfl h
  · cases h

end Formats

/-! ## The row of a command in the opcode map (30_encoding R73) -/

theorem encode_and_mask (i : Instr) : encode i &&& (opcodeRow i).mask = (opcodeRow i).pattern := by
  cases i with
  | wrw r a v => exact Laws.RowPattern.wrw r a v
  | wrf a v => exact Laws.RowPattern.wrf a v
  | plug a b => exact Laws.RowPattern.plug a b
  | notch r n => exact Laws.RowPattern.notch r n
  | ring r g => exact Laws.RowPattern.ring r g
  | pos r p => exact Laws.RowPattern.pos r p
  | build => exact Laws.RowPattern.build
  | enc c => exact Laws.RowPattern.enc c
  | enct c => exact Laws.RowPattern.enct c
  | rdpos r => exact Laws.RowPattern.rdpos r
  | rdst => exact Laws.RowPattern.rdst

theorem opcodeRow_mem_opcodeTable (i : Instr) : opcodeRow i ∈ opcodeTable := by
  cases i <;> simp [opcodeTable, opcodeRow]

theorem opField_mask_of_mem_opcodeTable : ∀ row ∈ opcodeTable, opField row.mask = 0xF#4 := by decide

/-- An opcode has one row. -/
theorem opcodeTable_eq_of_opField_eq :
    ∀ row ∈ opcodeTable, ∀ row' ∈ opcodeTable, opField row.pattern = opField row'.pattern → row = row' := by
  decide

theorem opField_and (w m : Word) : opField (w &&& m) = opField w &&& opField m := by
  simp [opField, BitVec.extractLsb'_and]

/-- The word of a command has the opcode of the command's row. -/
theorem opField_encode (i : Instr) : opField (encode i) = opField (opcodeRow i).pattern := by
  have hmask : opField (opcodeRow i).mask = BitVec.allOnes 4 :=
    opField_mask_of_mem_opcodeTable _ (opcodeRow_mem_opcodeTable i)
  rw [← encode_and_mask, opField_and, hmask, BitVec.and_allOnes]

/-- A word that decodes has, under the mask of the row of its opcode, that row's pattern. -/
theorem and_mask_of_decode {w : Word} {i : Instr} {row : OpcodeRow} (hd : decode w = .ok i)
    (hrow : row ∈ opcodeTable) (hop : opField w = opField row.pattern) : w &&& row.mask = row.pattern := by
  obtain rfl := encode_of_decode hd
  obtain rfl : row = opcodeRow i :=
    opcodeTable_eq_of_opField_eq row hrow _ (opcodeRow_mem_opcodeTable i) (hop.symm.trans (opField_encode i))
  exact encode_and_mask i

/-- Settles O3: had the word decoded, it would be the word of its command and have its row's pattern; so it is refused,
and the step answers that. -/
theorem mustBeZeroBitsChecked : Obligations.MustBeZeroBitsChecked := by
  intro row hrow w hop hne
  cases hd : decode w with
  | ok i => exact absurd (and_mask_of_decode hd hrow hop) hne
  | error why => exact ⟨⟨why, rfl⟩, fun s rest hi => Machine.step_of_illegal hi hd⟩

end Sys2Proof
end

section
/-! The alphabet codec: the letter of an integer, and the two directions undoing each other (40_codec R101, R103,
R108). -/

namespace Sys2Proof.Machine

/-- The letter of a residue lies between `A` and `Z`. -/
@[simp] theorem isLetter_i2l (n : Int) : isLetter (i2l n) = true := by
  have h := (mod26 n).isLt
  rw [isLetter_iff, i2l_toNat]
  omega

/-- Settles O43: the code of `I2L(n)` is 0x41 plus the residue, whose integer value is `n mod 26`. -/
theorem codecValues : Obligations.CodecValues := by
  refine ⟨isLetter_iff, fun n => ⟨?_, isLetter_i2l n⟩⟩
  rw [i2l_toNat]
  push_cast
  rw [mod26_val]

/-- The index of an integer's letter is the integer's residue. -/
@[simp] theorem l2i_i2l (n : Int) : l2i (i2l n) = some (mod26 n) := by
  rw [l2i_of_letter (isLetter_i2l n), i2l_toNat]
  have hoff : (((0x41 + (mod26 n).val : Nat) : Int) - 0x41) = (mod26 n).val := by omega
  rw [hoff, mod26_index]

/-- The letter of a letter's index is the letter: its offset from `A` is below 26, so reducing leaves it. -/
theorem i2l_mod26_of_isLetter {c : Character} (h : isLetter c = true) : i2l (mod26 (c.toNat - 0x41)).val = c := by
  rw [isLetter_iff] at h
  have hval := mod26_val (c.toNat - 0x41)
  apply BitVec.eq_of_toNat_eq
  rw [i2l_toNat, mod26_index]
  omega

/-- Settles O45: a letter's index has the letter back, and an integer's letter has the residue for its index, which for
an index is itself. -/
theorem codecRoundTrip : Obligations.CodecRoundTrip := by
  refine ⟨fun c hc => ?_, fun i => ?_, fun n => ?_⟩
  · exact ⟨_, l2i_of_letter hc, i2l_mod26_of_isLetter hc⟩
  · rw [l2i_i2l, mod26_index]
  · exact ⟨mod26 n, l2i_i2l n, mod26_val n⟩

end Sys2Proof.Machine
end

section
/-! One rotor: the way through it depends on the offset of its position against its ring and is undone by the inverse
table, and its advance adds 1 modulo 26 (41_rotor R121 to R126). -/

namespace Sys2Proof.Machine

/-! ## The way through a rotor, by its offset (41_rotor R126) -/

/-- The way through a rotor is the table look-up shifted by the offset of 41_rotor R126: entered at `x + d`, left at
`- d`. -/
theorem routeThrough_eq_offset (s : State) (k : Rotor) (tab : TableId) (x : Index) :
    routeThrough s k tab x =
      s.readTable tab (x + (s.pos.get k - s.ring.get k)) - (s.pos.get k - s.ring.get k) := by
  rw [routeThrough_eq, add_sub_assoc, sub_add]

theorem routeThrough_congr_offset {s t : State} {k : Rotor} {tab : TableId}
    (htab : ∀ a, t.readTable tab a = s.readTable tab a)
    (hd : t.pos.get k - t.ring.get k = s.pos.get k - s.ring.get k) (x : Index) :
    routeThrough t k tab x = routeThrough s k tab x := by
  rw [routeThrough_eq_offset, routeThrough_eq_offset, hd, htab]

/-- A table that undoes another takes every signal back through the rotor, because both ways shift by the same
offset. -/
theorem routeThrough_leftInverse {s : State} (k : Rotor) {tab undo : TableId}
    (h : Function.LeftInverse (s.readTable undo) (s.readTable tab)) :
    Function.LeftInverse (routeThrough s k undo) (routeThrough s k tab) := by
  intro x
  rw [routeThrough_eq_offset, routeThrough_eq_offset, sub_add_cancel, h, add_sub_cancel_right]

/-- On integers: the table read at the contact the raw entry value reduces to, unshifted and reduced. -/
theorem routeThrough_val {s : State} {k : Rotor} {x contact : Index} (tab : TableId)
    (hc : (contact.val : Int) = ((x.val : Int) + (s.pos.get k).val - (s.ring.get k).val) % 26) :
    ((routeThrough s k tab x).val : Int) =
      (((s.readTable tab contact).val : Int) - (s.pos.get k).val + (s.ring.get k).val) % 26 := by
  obtain ⟨c, hc', hy⟩ := (passes_iff s k tab x _).2 rfl
  obtain rfl : c = contact := Fin.ext (by exact_mod_cast hc'.trans hc.symm)
  exact hy

/-- Settles O39: both ways are the one way through a rotor, by the wiring and by the inverse table. -/
theorem rotorRoutingFormulas : Obligations.RotorRoutingFormulas :=
  fun _ _ _ _ hc => ⟨routeThrough_val (.wiring _) hc, routeThrough_val (.inverse _) hc⟩

/-- Settles O40: `INV[k]` undoes `W[k]`, so `BWD` undoes `FWD`; a left inverse of a surjection is its right inverse, so
`W[k]` undoes `INV[k]` too and `FWD` undoes `BWD`. -/
theorem forwardBackwardInverse : Obligations.ForwardBackwardInverse := by
  intro s k hperm hinv
  have hWiring : Function.LeftInverse (s.readTable (.inverse k)) (s.readTable (.wiring k)) := hinv
  have hBwdFwd : Function.LeftInverse (bwd s k) (fwd s k) := routeThrough_leftInverse k hWiring
  have hFwdBwd : Function.LeftInverse (fwd s k) (bwd s k) :=
    routeThrough_leftInverse k (hWiring.rightInverse_of_surjective hperm)
  exact ⟨⟨hBwdFwd.injective, hFwdBwd.surjective⟩, ⟨hFwdBwd.injective, hBwdFwd.surjective⟩,
    fun x => ⟨hBwdFwd x, hFwdBwd x⟩⟩

/-! ## Stepping does not see the rings (41_rotor R126) -/

theorem State.inNotch_withRing (s : State) (g : PerRotor Index) (k : Rotor) (x : Index) :
    ({ s with ring := g } : State).inNotch k x = s.inNotch k x := rfl

theorem adv_withRing (k : Rotor) (s : State) (g : PerRotor Index) :
    adv k { s with ring := g } = { adv k s with ring := g } := rfl

/-- Neither the two notch queries nor the advances they decide see a ring, so `STEP` commutes with replacing all three
rings. -/
theorem stepRotors_withRing (s : State) (g : PerRotor Index) :
    stepRotors { s with ring := g } = { stepRotors s with ring := g } := by
  cases hm : s.inNotch .middle s.pos.middle <;> cases hr : s.inNotch .right s.pos.right <;>
    simp [stepRotors, State.inNotch_withRing, adv_withRing, hm, hr]

/-- Settles O41: routing by the offset, and the rings out of the notch query and of `STEP`. -/
theorem routingDependsOnOffset : Obligations.RoutingDependsOnOffset := by
  refine ⟨fun s t k hw hinv hd x => ?_, fun s k g => ⟨rfl, ?_⟩⟩
  · exact ⟨routeThrough_congr_offset hw hd x, routeThrough_congr_offset hinv hd x⟩
  · rw [stepRotors_withRing]

/-! ## ADV (41_rotor R123) -/

theorem adv_pos_get_same (k : Rotor) (s : State) : (adv k s).pos.get k = s.pos.get k + 1 := by
  rw [adv, mod26_succ, State.setPos_pos, PerRotor.get_set_same]

theorem adv_pos_get_of_ne {j k : Rotor} (h : j ≠ k) (s : State) : (adv k s).pos.get j = s.pos.get j :=
  PerRotor.get_set_of_ne _ _ h

theorem adv_frame (k : Rotor) (s : State) : adv k s = { s with pos := (adv k s).pos } := rfl

@[simp] theorem State.setPos_setPos (s : State) (k : Rotor) (u v : Index) :
    (s.setPos k u).setPos k v = s.setPos k v := by
  cases k <;> rfl

@[simp] theorem State.setPos_get_self (s : State) (k : Rotor) : s.setPos k (s.pos.get k) = s := by
  cases k <;> rfl

/-- `n` advances add `n` to the position modulo 26. -/
theorem adv_iterate (k : Rotor) (n : Nat) (s : State) :
    (adv k)^[n] s = s.setPos k (mod26 ((s.pos.get k).val + n)) := by
  induction n with
  | zero => simp
  | succ n ih =>
    rw [Function.iterate_succ_apply', ih, adv, State.setPos_setPos, State.setPos_pos, PerRotor.get_set_same,
      mod26_add_mod26, Nat.cast_succ, add_assoc]

/-- A full turn of a rotor. -/
theorem adv_iterate_26 (k : Rotor) (s : State) : (adv k)^[26] s = s := by
  have hwrap : mod26 ((s.pos.get k).val + (26 : Nat)) = s.pos.get k := by
    have hlt := (s.pos.get k).isLt
    rw [mod26_eq_index]
    omega
  rw [adv_iterate, hwrap, State.setPos_get_self]

/-- Settles O42: what one advance writes, what it leaves, and the full turn. -/
theorem advanceWraps : Obligations.AdvanceWraps := by
  intro s k
  refine ⟨?_, fun j hj => adv_pos_get_of_ne hj s, adv_frame k s, adv_iterate_26 k s⟩
  rw [adv_pos_get_same, Fin.val_add]
  rfl

end Sys2Proof.Machine
end

section
/-! The stepping transition: the three positions after `STEP`, as functions of the positions and the middle and right
notch sets before it (42_stepping R142 to R149). -/

namespace Sys2Proof.Machine

theorem adv_pos (k : Rotor) (s : State) : (adv k s).pos = s.pos.set k (s.pos.get k + 1) := by
  rw [adv, mod26_succ, State.setPos_pos]

/-- The simultaneous form of `STEP` (42_stepping R143): each position moves by what the notch queries before the step
decide, so an earlier advance is never seen by a later one. -/
theorem stepRotors_pos (s : State) : (stepRotors s).pos =
    ⟨s.pos.left + if s.inNotch .middle s.pos.middle then 1 else 0,
      s.pos.middle + if s.inNotch .middle s.pos.middle || s.inNotch .right s.pos.right then 1 else 0,
      s.pos.right + 1⟩ := by
  cases ha : s.inNotch .middle s.pos.middle <;> cases hb : s.inNotch .right s.pos.right <;>
    simp [stepRotors, ha, hb, adv_pos, PerRotor.set, PerRotor.get]

/-- A conditional advance of an index, on naturals. -/
theorem index_add_ite_val (x : Index) (c : Prop) [Decidable c] :
    (x + if c then 1 else 0).val = (x.val + if c then 1 else 0) % 26 := by
  rw [Fin.val_add, apply_ite Fin.val]
  rfl

/-- Settles O34: the simultaneous form read on naturals. -/
theorem stepTransitionTable : Obligations.StepTransitionTable := by
  refine fun s => ⟨stepRotors_frame s, ?_, ?_, ?_⟩
  · rw [stepRotors_pos, index_add_ite_val]
  · rw [stepRotors_pos, index_add_ite_val]
  · rw [stepRotors_pos, Fin.val_add]
    rfl

/-- A notch query reads one notch set and nothing else of the state. -/
theorem State.inNotch_congr {s t : State} {k : Rotor} (h : t.notch.get k = s.notch.get k) (x : Index) :
    t.inNotch k x = s.inNotch k x := by
  rw [State.inNotch, State.inNotch, h]

/-- Settles O35: equal notch sets and positions give equal decisions, and the left rotor's advance is its decision
whatever its position. -/
theorem stepReadsOnlyPositionsAndNotches : Obligations.StepReadsOnlyPositionsAndNotches := by
  intro s t hmid hright hnotchMid hnotchRight
  have ha : t.inNotch .middle t.pos.middle = s.inNotch .middle s.pos.middle := by
    rw [hmid, State.inNotch_congr (k := .middle) hnotchMid]
  have hb : t.inNotch .right t.pos.right = s.inNotch .right s.pos.right := by
    rw [hright, State.inNotch_congr (k := .right) hnotchRight]
  rw [stepRotors_pos, stepRotors_pos, ha, hb, hmid, hright]
  exact ⟨rfl, rfl, by rw [add_sub_cancel_left, add_sub_cancel_left]⟩

/-- Settles O36: with empty sets both decisions are no; with a full middle set both are yes, whatever the right set
holds. -/
theorem stepWithEmptyOrFullNotches : Obligations.StepWithEmptyOrFullNotches := by
  constructor
  · intro s hmid hright
    simp [stepRotors_pos, hmid, hright]
  · intro s hmid _
    simp [stepRotors_pos, hmid]

end Sys2Proof.Machine
end

section
/-! The letter path: the nine look-ups of `TRANSFORM` against the path said on integers (43_pipeline R160 to R162). -/

namespace Sys2Proof.Machine

theorem exists_passes (s : State) (k : Rotor) (tab : TableId) (x : Index) : ∃ y, s.passes k tab x y :=
  ⟨_, (passes_iff s k tab x _).2 rfl⟩

/-- Each of the nine results is determined by the one before it, so they can be chosen in their order. -/
theorem exists_letterPath (s : State) (x : Index) : ∃ ts, s.letterPath x ts := by
  obtain ⟨t1, h1⟩ := exists_passes s .right (.wiring .right) (plugMap s x)
  obtain ⟨t2, h2⟩ := exists_passes s .middle (.wiring .middle) t1
  obtain ⟨t3, h3⟩ := exists_passes s .left (.wiring .left) t2
  obtain ⟨t5, h5⟩ := exists_passes s .left (.inverse .left) (reflMap s t3)
  obtain ⟨t6, h6⟩ := exists_passes s .middle (.inverse .middle) t5
  obtain ⟨t7, h7⟩ := exists_passes s .right (.inverse .right) t6
  exact ⟨#v[plugMap s x, t1, t2, t3, reflMap s t3, t5, t6, t7, plugMap s t7], rfl, h1, h2, h3, rfl, h5, h6, h7, rfl⟩

/-- Read backwards from `t8`, each result is the look-up `TRANSFORM` makes on the one before it. -/
theorem transform_eq_of_letterPath {s : State} {x : Index} {ts : Vector Index 9} (h : s.letterPath x ts) :
    transform s x = ts[8] := by
  obtain ⟨h0, h1, h2, h3, h4, h5, h6, h7, h8⟩ := h
  rw [passes_iff] at h1 h2 h3 h5 h6 h7
  rw [h8, ← h7, ← h6, ← h5, h4, ← h3, ← h2, ← h1, h0]
  rfl

end Sys2Proof.Machine
end

section
/-! The commands `ENC` and `ENCT`: what they answer to a letter, to a non-letter and in the CFG phase, that they differ
in the answer to a non-letter only, and that this holds over texts (43_pipeline R163, R164, R167). -/

namespace Sys2Proof.Machine

/-! ## Letters and non-letters by their codes -/

theorem l2i_of_toNat {c : Character} {x : Index} (h : c.toNat = 0x41 + x.val) : l2i c = some x := by
  have hx := x.isLt
  have hletter : isLetter c = true := by
    rw [isLetter_iff]
    omega
  have hoff : ((c.toNat : Int) - 0x41) = x.val := by omega
  rw [l2i_of_letter hletter, hoff, mod26_index]

theorem isLetter_eq_false_of_toNat {c : Character} (h : c.toNat < 0x41 ∨ 0x5A < c.toNat) : isLetter c = false := by
  rw [← Bool.not_eq_true, isLetter_iff]
  omega

/-! ## One character (43_pipeline R163, R164) -/

section OneCharacter

variable {s : State} {c : Character}

theorem exec_enc_of_nonletter (hp : s.phase = .run) (hc : isLetter c = false) :
    exec (.enc c) s = answer (.sym c) s := by
  simp [exec, execEnc, requirePhase_of_eq _ hp, l2i_of_nonletter hc]

theorem exec_enct_of_nonletter (hp : s.phase = .run) (hc : isLetter c = false) : exec (.enct c) s = answer .ack s := by
  simp [exec, execEnct, requirePhase_of_eq _ hp, l2i_of_nonletter hc]

theorem exec_enc_of_cfg (hp : s.phase = .cfg) : exec (.enc c) s = raise .wrongPhase s :=
  requirePhase_of_ne _ (by simp [hp])

theorem exec_enc_of_l2i {x : Index} (hp : s.phase = .run) (hx : l2i c = some x) :
    exec (.enc c) s = encryptLetter x s := by
  simp [exec, execEnc, requirePhase_of_eq _ hp, hx]

/-- `ENCT` is `ENC` wherever no non-letter is answered: for a letter in either phase, and for every character in CFG. -/
theorem exec_enct_eq_exec_enc (h : isLetter c = true ∨ s.phase = .cfg) : exec (.enct c) s = exec (.enc c) s := by
  rcases h with hc | hp
  · simp [exec, execEnc, execEnct, l2i_of_letter hc]
  · simp [exec, execEnc, execEnct, requirePhase, hp]

/-- The letter of an index is answered by the shared letter branch, whichever of the two commands carries it. -/
theorem exec_eq_encryptLetter {x : Index} (hp : s.phase = .run) (hc : c.toNat = 0x41 + x.val) :
    ∀ i ∈ [Instr.enc c, .enct c], exec i s = encryptLetter x s := by
  have hx : l2i c = some x := l2i_of_toNat hc
  have henc : exec (.enc c) s = encryptLetter x s := exec_enc_of_l2i hp hx
  have henct : exec (.enct c) s = encryptLetter x s := by
    rw [exec_enct_eq_exec_enc (.inl (isLetter_of_l2i hx)), henc]
  simp [henc, henct]

end OneCharacter

/-- The letter branch: `STEP`'s positions, the letter `TRANSFORM` gives there, and nothing else changed. -/
theorem encryptLetter_answers (x : Index) (s : State) :
    ∃ t d, encryptLetter x s = .next t ∧ t.responses = s.responses ++ [.sym d] ∧
      d.toNat = 0x41 + (transform (stepRotors s) x).val ∧ t.pos = (stepRotors s).pos ∧
      t.ring = s.ring ∧ t.notch = s.notch ∧ t.mem = s.mem ∧ s.sameControl t := by
  refine ⟨_, i2l (transform (stepRotors s) x).val, answer_eq _ _, ?_, ?_, ?_⟩
  · rw [State.respond_responses, stepRotors_responses]
  · rw [i2l_toNat, mod26_index]
  · simp [State.sameControl]

/-- Settles O20: each clause is the one equation of its branch. -/
theorem encAnswers : Obligations.EncAnswers := by
  refine ⟨fun c => toNat_wordC _ c, fun s c hp hc => ?_, fun s c x hp hc => ?_, fun s c hp => ?_⟩
  · exact exec_enc_of_nonletter hp (isLetter_eq_false_of_toNat hc)
  · rw [exec_eq_encryptLetter hp hc _ (by simp)]
    exact encryptLetter_answers x s
  · exact exec_enc_of_cfg hp

/-- Settles O21: as O20 but for the answer to a non-letter; in CFG `ENCT` is `ENC`. -/
theorem enctAnswers : Obligations.EnctAnswers := by
  refine ⟨fun c => toNat_wordC _ c, fun s c hp hc => ?_, fun s c x hp hc => ?_, fun s c hp => ?_⟩
  · exact exec_enct_of_nonletter hp (isLetter_eq_false_of_toNat hc)
  · rw [exec_eq_encryptLetter hp hc _ (by simp)]
    exact encryptLetter_answers x s
  · rw [exec_enct_eq_exec_enc (.inr hp)]
    exact exec_enc_of_cfg hp

/-- Settles O46: the path exists and determines `TRANSFORM`, at the stepped positions too, where the two commands take
their answer. -/
theorem letterTakesNineLookups : Obligations.LetterTakesNineLookups := by
  refine ⟨fun s x => ⟨rfl, rfl⟩, exists_letterPath, fun s x ts => transform_eq_of_letterPath,
    fun s c x ts hp hc hpath i hi => ?_⟩
  obtain ⟨t, d, ht, hr, hd, -⟩ := encryptLetter_answers x s
  rw [transform_eq_of_letterPath hpath] at hd
  exact ⟨t, d, (exec_eq_encryptLetter hp hc i hi).trans ht, hr, hd⟩

/-! ## Texts (43_pipeline R167) -/

/-- `STEP` does not see the responses given so far. -/
theorem stepRotors_withResponses (s : State) (l : List Response) :
    stepRotors { s with responses := l } = { stepRotors s with responses := l } := by
  rw [stepRotors_frame, stepRotors_frame s, stepRotors_pos, stepRotors_pos]
  rfl

/-- Nor does the letter branch, which adds one response to them. -/
theorem encryptLetter_withResponses (x : Index) (s : State) (l : List Response) :
    encryptLetter x { s with responses := l } =
      .next { stepRotors s with responses := l ++ [.sym (i2l (transform (stepRotors s) x).val)] } := by
  rw [encryptLetter, stepRotors_withResponses]
  rfl

/-- One character in RUN, whatever responses were given before: both commands leave the same state `u` but for the
response they add, `SYM(d)` by `ENC`, and by `ENCT` the same for a letter and one without a character for a
non-letter. -/
theorem exec_enc_enct_withResponses {s : State} (c : Character) (hp : s.phase = .run) :
    ∃ (u : State) (d : Character) (r : Response), u.phase = .run ∧
      r.character = (if isLetter c then some d else none) ∧ ∀ l,
        exec (.enc c) { s with responses := l } = .next { u with responses := l ++ [.sym d] } ∧
        exec (.enct c) { s with responses := l } = .next { u with responses := l ++ [r] } := by
  cases hc : isLetter c with
  | false => exact ⟨s, c, .ack, hp, rfl, fun l => ⟨exec_enc_of_nonletter hp hc, exec_enct_of_nonletter hp hc⟩⟩
  | true =>
    obtain ⟨x, hx⟩ : ∃ x, l2i c = some x := ⟨_, l2i_of_letter hc⟩
    have henc (l : List Response) :=
      (exec_enc_of_l2i (s := { s with responses := l }) hp hx).trans (encryptLetter_withResponses x s l)
    exact ⟨stepRotors s, _, _, (stepRotors_phase s).trans hp, rfl, fun l =>
      ⟨henc l, (exec_enct_eq_exec_enc (.inl hc)).trans (henc l)⟩⟩

/-- A text in RUN, whatever responses were given before: the two runs end in the same state `u` but for the responses,
and `ENCT`'s output is `ENC`'s at the letters of the input. -/
theorem execAll_enc_enct_withResponses (cs : List Character) {s : State} (hp : s.phase = .run) :
    ∃ (u : State) (ds : List Character) (rs : List Response), ds.length = cs.length ∧
      outputText rs = ((cs.zip ds).filter fun e => isLetter e.1).map Prod.snd ∧ ∀ l,
        execAll (cs.map .enc) { s with responses := l } = .next { u with responses := l ++ ds.map .sym } ∧
        execAll (pseudoText cs) { s with responses := l } = .next { u with responses := l ++ rs } := by
  induction cs generalizing s with
  | nil => exact ⟨s, [], [], rfl, rfl, fun l => by simp [pseudoText, execAll]⟩
  | cons c cs ih =>
    obtain ⟨s', d, r, hp', hr, hstep⟩ := exec_enc_enct_withResponses c hp
    obtain ⟨u, ds, rs, hlen, hout, hrun⟩ := ih hp'
    refine ⟨u, d :: ds, r :: rs, by simp [hlen], ?_, fun l => ⟨?_, ?_⟩⟩
    · cases hc : isLetter c <;> simp [hc, hr, ← hout, outputText]
    · have henc := (hrun (l ++ [.sym d])).1
      simpa [execAll, (hstep l).1] using henc
    · have henct := (hrun (l ++ [r])).2
      simpa [pseudoText, execAll, (hstep l).2] using henct

/-- Settles O50: the commands agree but for the answer to a non-letter, and over a text both runs end in one state but
for the responses. -/
theorem enctMatchesEnc : Obligations.EnctMatchesEnc := by
  refine ⟨fun s t c h => ⟨fun hsame => (exec_enct_eq_exec_enc hsame).trans h, fun hc hp => ?_⟩, fun s cs hp => ?_⟩
  · obtain rfl : s.respond (.sym c) = t := Host.Outcome.next.inj ((exec_enc_of_nonletter hp hc).symm.trans h)
    exact ⟨rfl, exec_enct_of_nonletter hp hc⟩
  · obtain ⟨u, ds, rs, hlen, hout, hrun⟩ := execAll_enc_enct_withResponses cs hp
    obtain ⟨henc, henct⟩ := hrun s.responses
    exact ⟨_, _, ds, rs, henc, rfl, hlen, henct, rfl, hout, rfl⟩

end Sys2Proof.Machine
end

section
/-! The words with a command's opcode that spell no command, said on the fields of the command's format (30_encoding R72,
R76). -/

namespace Sys2Proof

theorem exists_error_of_forall_ne_ok {d : Except Illegal Instr} (h : ∀ i, d ≠ .ok i) : ∃ e, d = .error e := by
  cases d with
  | ok i => exact absurd rfl (h i)
  | error e => exact ⟨e, rfl⟩

section Refused

variable {w : Word}

/-- Format T, 30_encoding R76 case 3. -/
theorem decode_refuses_formatT {f : BitVec 5 → BitVec 5 → Instr} (hd : decode w = decodeT w f) (h : rField w ≠ 0#2) :
    ∃ e, decode w = .error e := by
  refine exists_error_of_forall_ne_ok fun i hi => ?_
  obtain ⟨hr, -⟩ : rField w = 0#2 ∧ _ := by simpa [hd, decodeT] using hi
  exact h hr

/-- Format R, 30_encoding R76 cases 2 and 4. -/
theorem decode_refuses_formatR {f : BitVec 2 → BitVec 5 → Instr} (hd : decode w = decodeR w f)
    (h : rField w = 3#2 ∨ iField w ≠ 0#5) : ∃ e, decode w = .error e := by
  refine exists_error_of_forall_ne_ok fun i hi => ?_
  obtain ⟨hz, hr, -⟩ : iField w = 0#5 ∧ rField w ≠ 3#2 ∧ _ := by simpa [hd, decodeR, rotorSelectLegal] using hi
  exact h.elim hr fun hz' => hz' hz

/-- Format Q, 30_encoding R76 cases 2 and 7. -/
theorem decode_refuses_formatQ {f : BitVec 2 → Instr} (hd : decode w = decodeQ w f)
    (h : rField w = 3#2 ∨ w.extractLsb' 0 10 ≠ 0#10) : ∃ e, decode w = .error e := by
  refine exists_error_of_forall_ne_ok fun i hi => ?_
  obtain ⟨hz, hr, -⟩ : w.extractLsb' 0 10 = 0#10 ∧ rField w ≠ 3#2 ∧ _ := by
    simpa [hd, decodeQ, rotorSelectLegal] using hi
  exact h.elim hr fun hz' => hz' hz

/-- Format Z, 30_encoding R76 case 5. -/
theorem decode_refuses_formatZ {j : Instr} (hd : decode w = decodeZ w j) (h : w.extractLsb' 0 12 ≠ 0#12) :
    ∃ e, decode w = .error e := by
  refine exists_error_of_forall_ne_ok fun i hi => ?_
  obtain ⟨hz, -⟩ : w.extractLsb' 0 12 = 0#12 ∧ _ := by simpa [hd, decodeZ] using hi
  exact h hz

end Refused

end Sys2Proof
end

section
/-! The commands of the CFG phase: the error of the first check that fails, and what each command writes and leaves when
none does (44_configuration R181 to R187). -/

namespace Sys2Proof.Machine

/-! ## Errors in their order (60_exceptions R237) -/

theorem exec_eq_raise_of_cases {i : Instr} {s : State} {e : ErrorKind} {effect : Prop}
    (h : RaisesFirst i s ∨ (firstFailedCheck i s.phase = none ∧ effect)) (he : firstFailedCheck i s.phase = some e) :
    exec i s = raise e s := by
  rcases h with ⟨e', he', hexec⟩ | ⟨hnone, -⟩
  · obtain rfl : e' = e := Option.some.inj (he'.symm.trans he)
    exact hexec
  · simp [hnone] at he

/-- A command raises the error of its first failed check. -/
theorem exec_eq_raise_of_firstFailedCheck {i : Instr} {s : State} {e : ErrorKind}
    (he : firstFailedCheck i s.phase = some e) : exec i s = raise e s := by
  cases i with
  | wrw r a v => exact exec_eq_raise_of_cases (execWrw_cases r a v s) he
  | wrf a v => exact exec_eq_raise_of_cases (execWrf_cases a v s) he
  | plug a b => exact exec_eq_raise_of_cases (execPlug_cases a b s) he
  | notch r n => exact exec_eq_raise_of_cases (execNotch_cases r n s) he
  | ring r g => exact exec_eq_raise_of_cases (execRing_cases r g s) he
  | pos r p => exact exec_eq_raise_of_cases (execPos_cases r p s) he
  | build => exact exec_eq_raise_of_cases (execBuild_cases s) he
  | enc c => exact exec_eq_raise_of_cases (execEnc_cases c s) he
  | enct c => exact exec_eq_raise_of_cases (execEnct_cases c s) he
  | rdpos r => exact exec_eq_raise_of_cases (execRdpos_cases r s) he
  | rdst => simp [firstFailedCheck] at he

section Errors

variable {i : Instr} {s : State}

theorem exec_illegalCommand (h : firstFailedCheck i s.phase = some .illegalCommand) :
    exec i s = .next (s.errorAnswered .illegalCommand 1#3) := exec_eq_raise_of_firstFailedCheck h

theorem exec_wrongPhase (h : firstFailedCheck i s.phase = some .wrongPhase) :
    exec i s = .next (s.errorAnswered .wrongPhase 2#3) := exec_eq_raise_of_firstFailedCheck h

theorem exec_invalidSymbol (h : firstFailedCheck i s.phase = some .invalidSymbol) :
    exec i s = .next (s.errorAnswered .invalidSymbol 3#3) := exec_eq_raise_of_firstFailedCheck h

end Errors

/-- With two letter fields, the value check fails when either is above 25. -/
theorem not_both_le_25 {i v : BitVec 5} (h : 25 < i.toNat ∨ 25 < v.toNat) :
    (!decide (25 < i.toNat) && !decide (25 < v.toNat)) = false := by
  rcases h with h | h <;> simp [h]

/-! ## The effect in the CFG phase -/

section Effect

variable {s : State}

theorem exec_wrw_of_cfg (k : Rotor) (a d : Index) (hp : s.phase = .cfg) :
    exec (.wrw (rotorSelect k) (indexCode a) (indexCode d)) s = answer .ack (s.writeTable (.wiring k) a d) := by
  simp [exec, execWrw, withRotor_rotorSelect, requirePhase_of_eq _ hp, withIndex_indexCode]

theorem exec_wrf_of_cfg (a d : Index) (hp : s.phase = .cfg) :
    exec (.wrf (indexCode a) (indexCode d)) s = answer .ack (s.writeTable .reflector a d) := by
  simp [exec, execWrf, requirePhase_of_eq _ hp, withIndex_indexCode]

theorem exec_plug_of_cfg (x y : Index) (hp : s.phase = .cfg) :
    exec (.plug (indexCode x) (indexCode y)) s =
      answer .ack ((s.writeTable .plugboard x y).writeTable .plugboard y x) := by
  simp [exec, execPlug, requirePhase_of_eq _ hp, withIndex_indexCode]

theorem exec_notch_of_cfg (k : Rotor) (n : Index) (hp : s.phase = .cfg) :
    exec (.notch (rotorSelect k) (indexCode n)) s = answer .ack (s.addNotch k n) := by
  simp [exec, execNotch, withRotor_rotorSelect, requirePhase_of_eq _ hp, withIndex_indexCode]

theorem exec_ring_of_cfg (k : Rotor) (g : BitVec 5) (hp : s.phase = .cfg) :
    exec (.ring (rotorSelect k) g) s = answer .ack (s.setRing k (indexReduced g)) := by
  simp [exec, execRing, withRotor_rotorSelect, requirePhase_of_eq _ hp]

theorem exec_pos_of_cfg (k : Rotor) (p : BitVec 5) (hp : s.phase = .cfg) :
    exec (.pos (rotorSelect k) p) s = answer .ack (s.setPos k (indexReduced p)) := by
  simp [exec, execPos, withRotor_rotorSelect, requirePhase_of_eq _ hp]

theorem exec_build_of_cfg (hp : s.phase = .cfg) :
    exec .build s = answer .ack (s.computeInverses.setPhase .run) := by
  simp [exec, execBuild, requirePhase_of_eq _ hp]

end Effect

/-! ## Table writes (44_configuration R181 to R183) -/

/-- A response leaves every table read as it was. -/
@[simp] theorem State.readTable_respond (s : State) (r : Response) : (s.respond r).readTable = s.readTable := rfl

@[simp] theorem State.readTable_setPhase (s : State) (p : Phase) : (s.setPhase p).readTable = s.readTable := rfl

/-- A write lists its entry; only the plugboard, when it takes the identity back, does not. -/
theorem Memory.isWritten_write_same (m : Memory) {tab : TableId} (a d : Index) (h : tab ≠ .plugboard) :
    (m.write tab a d).isWritten tab a = true := by
  simp [Memory.isWritten, Memory.entry_write_same, h]

/-- What `WRW` and `WRF` leave: one entry written, and nothing else changed. -/
theorem answer_writeTable (s : State) {tab : TableId} (a d : Index) (h : tab ≠ .plugboard) :
    ∃ t, answer .ack (s.writeTable tab a d) = .next t ∧
      t.readTable tab a = d ∧ t.mem.isWritten tab a = true ∧ s.sameTables t (fun tab' x => tab' = tab ∧ x = a) ∧
      t.pos = s.pos ∧ t.ring = s.ring ∧ t.notch = s.notch ∧ s.sameControl t ∧
      t.responses = s.responses ++ [.ack] := by
  refine ⟨_, answer_eq _ _, ?_, ?_, fun tab' x hne => ?_, ?_⟩
  · exact State.readTable_writeTable_same s tab a d
  · exact Memory.isWritten_write_same s.mem a d h
  · exact State.readTable_writeTable_of_ne s d hne
  · simp [State.sameControl]

/-- The second write of `PLUG` leaves the first in place: where both go to one entry, they write one datum. -/
theorem readTable_plug_first (s : State) (x y : Index) :
    ((s.writeTable .plugboard x y).writeTable .plugboard y x).readTable .plugboard x = y := by
  by_cases hxy : x = y
  · rw [← hxy]
    exact State.readTable_writeTable_same _ _ _ _
  · rw [State.readTable_writeTable_of_ne _ _ (by simp [hxy])]
    exact State.readTable_writeTable_same _ _ _ _

/-- Settles O13: the checks fail in their order, and with none failing the one entry is written. -/
theorem wrwWritesWiringEntry : Obligations.WrwWritesWiringEntry := by
  refine ⟨fun r i v => toNat_wordW _ r i v, fun s k a d hp => ?_, fun s r i v => ⟨fun hr => ?_, fun hr hp => ?_,
    fun hr hp hv => ?_⟩⟩
  · rw [exec_wrw_of_cfg k a d hp]
    exact answer_writeTable s a d (by simp)
  · exact exec_illegalCommand (by simp [firstFailedCheck, hr])
  · exact exec_wrongPhase (by simp [firstFailedCheck, hr, hp])
  · exact exec_invalidSymbol (by simp [firstFailedCheck, hr, hp, not_both_le_25 hv, -not_lt])

/-- Settles O14: as O13, for the reflector and without a rotor to check. -/
theorem wrfWritesReflectorEntry : Obligations.WrfWritesReflectorEntry := by
  refine ⟨fun i v => toNat_wordW _ 0#2 i v, fun w hop hr => ?_, fun s a d hp => ?_, fun s i v => ⟨fun hp => ?_,
    fun hp hv => ?_⟩⟩
  · exact decode_refuses_formatT (f := .wrf) (by simp [decode, hop]) hr
  · rw [exec_wrf_of_cfg a d hp]
    exact answer_writeTable s a d (by simp)
  · exact exec_wrongPhase (by simp [firstFailedCheck, hp])
  · exact exec_invalidSymbol (by simp [firstFailedCheck, hp, not_both_le_25 hv, -not_lt])

/-- Settles O15: the two writes go to the two entries of the pair, and an entry outside the pair is seen by neither. -/
theorem plugConnectsPair : Obligations.PlugConnectsPair := by
  refine ⟨fun a b => toNat_wordW _ 0#2 a b, fun w hop hr => ?_, fun s x y hp => ?_, fun s a b => ⟨fun hp => ?_,
    fun hp hv => ?_⟩⟩
  · exact decode_refuses_formatT (f := .plug) (by simp [decode, hop]) hr
  · rw [exec_plug_of_cfg x y hp]
    refine ⟨_, answer_eq _ _, readTable_plug_first s x y, State.readTable_writeTable_same _ _ _ _,
      fun tab z hne => ?_, ?_⟩
    · rw [not_and_or, not_or] at hne
      rw [State.readTable_respond, State.readTable_writeTable_of_ne _ _ (by tauto),
        State.readTable_writeTable_of_ne _ _ (by tauto)]
    · simp [State.sameControl]
  · exact exec_wrongPhase (by simp [firstFailedCheck, hp])
  · exact exec_invalidSymbol (by simp [firstFailedCheck, hp, not_both_le_25 hv, -not_lt])

/-! ## Registers (44_configuration R184 to R186) -/

/-- The notch set of a rotor after `NOTCH` has gained exactly the one index. -/
theorem State.inNotch_addNotch_same (s : State) (k : Rotor) (n x : Index) :
    (s.addNotch k n).inNotch k x = true ↔ s.inNotch k x = true ∨ x = n := by
  simp [State.inNotch, Fin.ext_iff]

/-- A field reduced is its residue, on naturals. -/
theorem indexReduced_val (f : BitVec 5) : (indexReduced f).val = f.toNat % 26 := by
  have h := mod26_val f.toNat
  rw [indexReduced]
  omega

/-- Settles O16: one bit of one mask is set. -/
theorem notchAddsIndex : Obligations.NotchAddsIndex := by
  refine ⟨fun r n => toNat_wordW _ r 0#5 n, fun w hop hw => ?_, fun s k n hp => ?_, fun s r n => ⟨fun hr => ?_,
    fun hr hp => ?_, fun hr hp hn => ?_⟩⟩
  · exact decode_refuses_formatR (f := .notch) (by simp [decode, hop]) hw
  · rw [exec_notch_of_cfg k n hp]
    refine ⟨_, answer_eq _ _, State.inNotch_addNotch_same s k n, fun j hj => PerRotor.get_set_of_ne _ _ hj, ?_⟩
    simp [State.sameControl]
  · exact exec_illegalCommand (by simp [firstFailedCheck, hr])
  · exact exec_wrongPhase (by simp [firstFailedCheck, hr, hp])
  · exact exec_invalidSymbol (by simp [firstFailedCheck, hr, hp, hn])

/-- Settles O17: the value written is the residue of the field, whatever the field. -/
theorem ringStoresResidue : Obligations.RingStoresResidue := by
  refine ⟨fun r g => toNat_wordW _ r 0#5 g, fun w hop hw => ?_, fun s k g hp => ?_, fun s r g => ⟨fun hr => ?_,
    fun hr hp => ?_⟩⟩
  · exact decode_refuses_formatR (f := .ring) (by simp [decode, hop]) hw
  · rw [exec_ring_of_cfg k g hp]
    refine ⟨_, answer_eq _ _, ?_, fun j hj => PerRotor.get_set_of_ne _ _ hj, ?_⟩
    · simp [indexReduced_val]
    · simp [State.sameControl]
  · exact exec_illegalCommand (by simp [firstFailedCheck, hr])
  · exact exec_wrongPhase (by simp [firstFailedCheck, hr, hp])

/-- Settles O18: as O17, for the position. -/
theorem posStoresResidue : Obligations.PosStoresResidue := by
  refine ⟨fun r p => toNat_wordW _ r 0#5 p, fun w hop hw => ?_, fun s k p hp => ?_, fun s r p => ⟨fun hr => ?_,
    fun hr hp => ?_⟩⟩
  · exact decode_refuses_formatR (f := .pos) (by simp [decode, hop]) hw
  · rw [exec_pos_of_cfg k p hp]
    refine ⟨_, answer_eq _ _, ?_, fun j hj => PerRotor.get_set_of_ne _ _ hj, ?_⟩
    · simp [indexReduced_val]
    · simp [State.sameControl]
  · exact exec_illegalCommand (by simp [firstFailedCheck, hr])
  · exact exec_wrongPhase (by simp [firstFailedCheck, hr, hp])

/-! ## BUILD (44_configuration R187) -/

theorem State.readTable_computeInverses_wiring (s : State) (k : Rotor) :
    s.computeInverses.readTable (.wiring k) = s.readTable (.wiring k) :=
  s.readTable_computeInverses_of_not_inverse (by simp)

/-- What `BUILD` leaves in `INV[k]` undoes a `W[k]` that is a permutation. -/
theorem State.computeInverses_leftInverse {s : State} {k : Rotor} (h : isPermutation (s.readTable (.wiring k))) :
    Function.LeftInverse (s.computeInverses.readTable (.inverse k)) (s.readTable (.wiring k)) := by
  intro i
  rw [State.readTable_computeInverses_inverse, builtInverse_of_isPermutation _ _ h]

/-- Settles O19: `INV[k]` is a left inverse of the permutation `W[k]`, and so, `W[k]` being surjective, its right inverse
too; only the inverse tables and `PHASE` are written. -/
theorem buildComputesInverses : Obligations.BuildComputesInverses := by
  refine ⟨by decide, fun w hop hz => ?_, fun s hp => ?_, fun s hp => ?_⟩
  · exact decode_refuses_formatZ (j := .build) (by simp [decode, hop]) hz
  · rw [exec_build_of_cfg hp]
    refine ⟨_, answer_eq _ _, rfl, s.isWritten_computeInverses, fun k hperm i => ?_, fun tab a hne => ?_, ?_⟩
    · have hleft := State.computeInverses_leftInverse hperm
      rw [State.readTable_respond, State.readTable_setPhase, State.readTable_computeInverses_wiring]
      exact ⟨hleft i, hleft.rightInverse_of_surjective hperm i⟩
    · rw [State.readTable_respond, State.readTable_setPhase,
        State.readTable_computeInverses_of_not_inverse s (not_exists.mp hne)]
    · simp
  · exact exec_wrongPhase (by simp [firstFailedCheck, hp])

end Sys2Proof.Machine
end

section
/-! The read commands: the words of their responses, and that they write nothing (44_configuration R188, R189). -/

namespace Sys2Proof.Machine

/-- The number a value response is (30_encoding R84). -/
theorem toNat_toWord_val (x : BitVec 5) : (Response.val x).toWord.toNat = 0x2000 + x.toNat := by
  have hx := x.isLt
  simp only [Response.toWord, BitVec.toNat_append]
  rw [← Nat.shiftLeft_add_eq_or_of_lt (by omega), ← Nat.shiftLeft_add_eq_or_of_lt (by simp)]
  simp only [Nat.shiftLeft_eq, BitVec.toNat_ofNat]

theorem toNat_indexCode (x : Index) : (indexCode x).toNat = x.val :=
  (indexOfField_eq_some_iff _ x).mp (indexOfField_indexCode x)

/-- The number `STATUS` is: `CAUSE`, `FAULT` and `PHASE` at their places (30_encoding R85). -/
theorem toNat_status (s : State) :
    s.status.toNat = s.cause.toNat * 4 + (if s.fault = true then 2 else 0) + (if s.phase = .run then 1 else 0) := by
  have hphase : s.phase.bit.toNat = if s.phase = .run then 1 else 0 := by cases s.phase <;> rfl
  have hfault : (BitVec.ofBool s.fault).toNat = if s.fault = true then 1 else 0 := by cases s.fault <;> rfl
  simp only [State.status, BitVec.toNat_append]
  rw [← Nat.shiftLeft_add_eq_or_of_lt (BitVec.isLt _), ← Nat.shiftLeft_add_eq_or_of_lt (BitVec.isLt _), hphase, hfault]
  simp only [Nat.shiftLeft_eq]
  split <;> split <;> omega

/-- Settles O22: the answer is the position's code. -/
theorem rdposReadsPosition : Obligations.RdposReadsPosition := by
  refine ⟨fun r => toNat_wordW _ r 0#5 0#5, fun w hop hw => ?_, fun s k => ⟨indexCode (s.pos.get k), ?_, ?_⟩,
    fun s => rfl⟩
  · exact decode_refuses_formatQ (f := .rdpos) (by simp [decode, hop]) hw
  · exact withRotor_rotorSelect k s _
  · rw [toNat_toWord_val, toNat_indexCode]

/-- Settles O23: the answer is `STATUS`, a number by its three fields. -/
theorem rdstReadsStatus : Obligations.RdstReadsStatus := by
  refine ⟨by decide, fun w hop hz => ?_, fun s => ⟨s.status, execRdst_eq s, ?_⟩⟩
  · exact decode_refuses_formatZ (j := .rdst) (by simp [decode, hop]) hz
  · rw [toNat_toWord_val, toNat_status]
    omega

end Sys2Proof.Machine
end

section
/-! The commands a configuration maps onto: each part of the list by its members and its length (44_configuration
R194). -/

namespace Sys2Proof.Machine

theorem exists_rotor_iff {p : Rotor → Prop} : (∃ k, p k) ↔ p .left ∨ p .middle ∨ p .right := by
  constructor
  · rintro ⟨k, hk⟩
    cases k with
    | left => exact .inl hk
    | middle => exact .inr (.inl hk)
    | right => exact .inr (.inr hk)
  · rintro (h | h | h) <;> exact ⟨_, h⟩

/-! ## Members -/

/-- The pairs of an address and the entry there. -/
theorem mem_zip_finRange (l : List Index) (a d : Index) :
    (a, d) ∈ (List.finRange 26).zip l ↔ l[a.val]? = some d := by
  rw [List.mem_iff_getElem?]
  simp only [List.getElem?_zip_eq_some]
  constructor
  · rintro ⟨n, hn, hd⟩
    obtain ⟨hlt, rfl⟩ := List.getElem?_eq_some_iff.mp hn
    simpa using hd
  · intro hd
    exact ⟨a.val, by simp, hd⟩

/-- One command per entry of a table, whatever the command. -/
theorem mem_map_zip_finRange (f : Index × Index → Instr) (l : List Index) (i : Instr) :
    i ∈ ((List.finRange 26).zip l).map f ↔ ∃ a d : Index, l[a.val]? = some d ∧ i = f (a, d) := by
  simp only [List.mem_map, Prod.exists, mem_zip_finRange, eq_comm]

theorem mem_pseudoRotor (k : Rotor) (l : List Index) (i : Instr) :
    i ∈ pseudoRotor k l ↔
      ∃ a d : Index, l[a.val]? = some d ∧ i = .wrw (rotorSelect k) (indexCode a) (indexCode d) :=
  mem_map_zip_finRange _ l i

theorem mem_pseudoReflector (l : List Index) (i : Instr) :
    i ∈ pseudoReflector l ↔ ∃ a d : Index, l[a.val]? = some d ∧ i = .wrf (indexCode a) (indexCode d) :=
  mem_map_zip_finRange _ l i

theorem mem_pseudoNotches (k : Rotor) (l : List Index) (i : Instr) :
    i ∈ pseudoNotches k l ↔ ∃ n ∈ l, i = .notch (rotorSelect k) (indexCode n) := by
  simp only [pseudoNotches, List.mem_map, eq_comm]

theorem mem_pseudoPlugs (ps : List (Index × Index)) (i : Instr) :
    i ∈ pseudoPlugs ps ↔ ∃ p ∈ ps, i = .plug (indexCode p.1) (indexCode p.2) := by
  simp only [pseudoPlugs, List.mem_map, eq_comm]

/-- The three rotors' parts joined: wiring, reflector, notches, rings, positions and pairs. -/
theorem mem_commands (c : Configuration) (i : Instr) :
    i ∈ c.commands ↔
      (∃ k, i ∈ pseudoRotor k (c.wiring.get k)) ∨ i ∈ pseudoReflector c.reflector ∨
      (∃ k, i ∈ pseudoNotches k (c.notch.get k)) ∨
      i ∈ nonDefaultCommands (fun k g => .ring (rotorSelect k) (indexCode g)) c.ring ∨
      i ∈ nonDefaultCommands (fun k p => .pos (rotorSelect k) (indexCode p)) c.start ∨ i ∈ pseudoPlugs c.plugs := by
  simp only [Configuration.commands, List.mem_append, exists_rotor_iff, PerRotor.get, or_assoc]

/-! ## Lengths -/

theorem length_map_zip_finRange {l : List Index} (f : Index × Index → Instr) (h : l.length = 26) :
    (((List.finRange 26).zip l).map f).length = 26 := by
  simp [h]

theorem length_nonDefaultCommands (f : Rotor → Index → Instr) (x : PerRotor Index) :
    (nonDefaultCommands f x).length = [Rotor.left, .middle, .right].countP fun k => x.get k != 0 := by
  rw [nonDefaultCommands, List.length_map, List.countP_eq_length_filter]

/-- Settles O56: the members and the length of a joined list, part by part. -/
theorem configurationMapsToCommands : Obligations.ConfigurationMapsToCommands := by
  intro c hw hrefl
  constructor
  · intro i
    simp only [mem_commands, mem_pseudoRotor, mem_pseudoReflector, mem_pseudoNotches, mem_nonDefaultCommands,
      mem_pseudoPlugs]
  · have hRotor (k : Rotor) : (pseudoRotor k (c.wiring.get k)).length = 26 := length_map_zip_finRange _ (hw k)
    have hReflector : (pseudoReflector c.reflector).length = 26 := length_map_zip_finRange _ hrefl
    have hLeft := hRotor .left
    have hMiddle := hRotor .middle
    have hRight := hRotor .right
    simp only [PerRotor.get] at hLeft hMiddle hRight
    simp only [Configuration.commands, List.length_append, hLeft, hMiddle, hRight, hReflector,
      length_nonDefaultCommands, pseudoNotches, pseudoPlugs, List.length_map]
    omega

end Sys2Proof.Machine
end

section
/-! What a letter does in the RUN phase, by either command: it is answered by a letter, whatever the tables hold, and
steps the rotors once (45_properties R214, R215, R218). -/

namespace Sys2Proof.Machine

/-! ## One letter -/

theorem isLetter_iff_exists_index (c : Character) : isLetter c = true ↔ ∃ x : Index, c.toNat = 0x41 + x.val := by
  rw [isLetter_iff]
  constructor
  · rintro ⟨hA, hZ⟩
    exact ⟨⟨c.toNat - 0x41, by omega⟩, by simp only; omega⟩
  · rintro ⟨x, hx⟩
    omega

section OneLetter

variable {s : State} {c : Character} {i : Instr}

/-- A letter command is `ENC` or `ENCT` of the letter of some index. -/
theorem exists_encryptLetter_of_isLetterCommand (hp : s.phase = .run) (hi : isLetterCommand i = true) :
    ∃ x, exec i s = encryptLetter x s := by
  cases i with
  | enc c =>
    obtain ⟨x, hx⟩ := (isLetter_iff_exists_index c).1 hi
    exact ⟨x, exec_eq_encryptLetter hp hx _ (by simp)⟩
  | enct c =>
    obtain ⟨x, hx⟩ := (isLetter_iff_exists_index c).1 hi
    exact ⟨x, exec_eq_encryptLetter hp hx _ (by simp)⟩
  | _ => cases hi

/-- Over the rotors a letter command is one `STEP`, ready for the next command. -/
theorem exec_of_isLetterCommand (hp : s.phase = .run) (hi : isLetterCommand i = true) :
    ∃ t, exec i s = .next t ∧ t.pos = (stepRotors s).pos ∧ t.notch = s.notch ∧ t.phase = .run := by
  obtain ⟨x, hx⟩ := exists_encryptLetter_of_isLetterCommand hp hi
  obtain ⟨t, -, ht, -, -, hpos, -, hnotch, -, hphase, -⟩ := encryptLetter_answers x s
  exact ⟨t, hx.trans ht, hpos, hnotch, hphase.trans hp⟩

/-- The answer to the letter of `x` is a letter, the one of `TRANSFORM(x)` after the step. -/
theorem exec_letter_answers {x : Index} (hp : s.phase = .run) (hx : c.toNat = 0x41 + x.val)
    (hi : i ∈ [Instr.enc c, .enct c]) :
    ∃ t d, exec i s = .next t ∧ t.responses = s.responses ++ [.sym d] ∧ isLetter d = true ∧
      d.toNat = 0x41 + (transform (stepRotors s) x).val := by
  obtain ⟨t, d, ht, hr, hd, -⟩ := encryptLetter_answers x s
  exact ⟨t, d, (exec_eq_encryptLetter hp hx i hi).trans ht, hr, (isLetter_iff_exists_index d).2 ⟨_, hd⟩, hd⟩

end OneLetter

/-- Settles O53: a letter is answered by the letter branch, a non-letter by itself or by `ACK`. -/
theorem runPhaseTotal : Obligations.RunPhaseTotal := by
  intro s c hp i hi
  cases hc : isLetter c with
  | true =>
    obtain ⟨x, hx⟩ := (isLetter_iff_exists_index c).1 hc
    obtain ⟨t, d, ht, hr, hd, -⟩ := exec_letter_answers hp hx hi
    exact ⟨t, .sym d, ht, hr, by simp, fun _ => ⟨d, rfl, hd⟩⟩
  | false =>
    have hi' : i = .enc c ∨ i = .enct c := by simpa using hi
    rcases hi' with rfl | rfl
    · exact ⟨_, .sym c, exec_enc_of_nonletter hp hc, rfl, by simp, by simp⟩
    · exact ⟨_, .ack, exec_enct_of_nonletter hp hc, rfl, by simp, by simp⟩

/-! ## Two letters: the double step (45_properties R214) -/

/-- Settles O38: the first letter steps the middle rotor onto its notch by the right rotor's notch; the second finds the
middle rotor at its notch, so left and middle advance. -/
theorem doubleStepOverTwoLetters : Obligations.DoubleStepOverTwoLetters := by
  intro s n i j hp hi hj hn hmid hright hmidFree hrightFree
  obtain ⟨t, ht, htpos, htnotch, htphase⟩ := exec_of_isLetterCommand hp hi
  obtain ⟨u, hu, hupos, -⟩ := exec_of_isLetterCommand htphase hj
  have hfirst : t.pos = ⟨s.pos.left, n, s.pos.right + 1⟩ := by
    simp [htpos, stepRotors_pos, hmid, hmidFree, hright]
  have hnotch (k : Rotor) (x : Index) : t.inNotch k x = s.inNotch k x :=
    State.inNotch_congr (by rw [htnotch]) x
  have hsecond : u.pos = ⟨s.pos.left + 1, n + 1, s.pos.right + 1 + 1⟩ := by
    simp [hupos, stepRotors_pos, hfirst, hnotch, hn]
  exact ⟨t, u, ht, hfirst, hu, by rw [hsecond, add_assoc]; rfl⟩

/-! ## A text by `ENCT` (45_properties R215) -/

/-- A text sent with `ENCT` in RUN, whatever responses were given before: as many steps and as many output letters as
it has letters, and nothing else changed but the responses. -/
theorem execAll_pseudoText (cs : List Character) {s : State} (hp : s.phase = .run) :
    ∃ rs, (outputText rs).length = cs.countP isLetter ∧ (∀ d ∈ outputText rs, isLetter d = true) ∧
      ∀ l, execAll (pseudoText cs) { s with responses := l } =
        .next { stepRotors^[cs.countP isLetter] s with responses := l ++ rs } := by
  induction cs generalizing s with
  | nil => exact ⟨[], rfl, by simp [outputText], fun l => by simp [pseudoText, execAll]⟩
  | cons c cs ih =>
    cases hc : isLetter c with
    | false =>
      obtain ⟨rs, hlen, hletters, hrun⟩ := ih hp
      have hcount : (c :: cs).countP isLetter = cs.countP isLetter := by simp [hc]
      refine ⟨.ack :: rs, hlen.trans hcount.symm, hletters, fun l => ?_⟩
      have hack : exec (.enct c) { s with responses := l } = .next { s with responses := l ++ [.ack] } :=
        exec_enct_of_nonletter hp hc
      have htail := hrun (l ++ [.ack])
      rw [hcount]
      simpa [pseudoText, execAll, hack] using htail
    | true =>
      obtain ⟨x, hx⟩ := (isLetter_iff_exists_index c).1 hc
      obtain ⟨rs, hlen, hletters, hrun⟩ := ih ((stepRotors_phase s).trans hp)
      have hcount : (c :: cs).countP isLetter = cs.countP isLetter + 1 := by simp [hc]
      refine ⟨.sym (i2l (transform (stepRotors s) x).val) :: rs, ?_, ?_, fun l => ?_⟩
      · rw [hcount, ← hlen]
        rfl
      · exact List.forall_mem_cons.2 ⟨isLetter_i2l _, hletters⟩
      · have hletter := (exec_eq_encryptLetter (s := { s with responses := l }) hp hx (.enct c) (by simp)).trans
          (encryptLetter_withResponses x s l)
        have htail := hrun (l ++ [.sym (i2l (transform (stepRotors s) x).val)])
        rw [hcount, Function.iterate_succ_apply]
        simpa [pseudoText, execAll, hletter] using htail

/-- Settles O52: the digit is no letter, and three of the four characters of the text are. -/
theorem nonLetterAsymmetry : Obligations.NonLetterAsymmetry := by
  intro s hp
  obtain ⟨rs, hlen, hletters, hrun⟩ := execAll_pseudoText [0x41#8, 0x42#8, 0x33#8, 0x43#8] hp
  have hcount : [0x41#8, 0x42#8, 0x33#8, 0x43#8].countP isLetter = 3 := by decide
  rw [hcount] at hlen hrun
  exact ⟨exec_enc_of_nonletter hp (by decide), _, rs, hrun s.responses, rfl, hlen, hletters, rfl⟩

end Sys2Proof.Machine
end

section
/-! `TRANSFORM` with a well-formed configuration: the way to the reflector, the reflector, and the way undone, so an
involution without fixed points as the reflector is (45_properties R212, R213). -/

namespace Sys2Proof.Machine

/-- The first four look-ups of `TRANSFORM`: plugboard, then the three rotors forward (43_pipeline R162). -/
def wayIn (s : State) (x : Index) : Index := fwd s .left (fwd s .middle (fwd s .right (plugMap s x)))

/-- The last four look-ups of `TRANSFORM`: the three rotors backward, then the plugboard (43_pipeline R162). -/
def wayOut (s : State) (y : Index) : Index := plugMap s (bwd s .right (bwd s .middle (bwd s .left y)))

theorem transform_eq_wayOut_reflMap_wayIn (s : State) (x : Index) :
    transform s x = wayOut s (reflMap s (wayIn s x)) := rfl

section WellFormed

variable {s : State} (hp : s.phase = .run) (hinv : s.inverseBuilt) (hwf : s.WF)

include hp hinv hwf

/-- The two ways undo each other: each rotor's do, and the plugboard undoes itself. -/
theorem wayOut_wayIn_inverse :
    Function.LeftInverse (wayOut s) (wayIn s) ∧ Function.RightInverse (wayOut s) (wayIn s) := by
  obtain ⟨hwiring, -, hplug⟩ := hwf
  have hrotor (k : Rotor) (x : Index) : bwd s k (fwd s k x) = x ∧ fwd s k (bwd s k x) = x := by
    obtain ⟨-, hperm⟩ := hwiring k
    obtain ⟨-, hbuilt⟩ := hinv hp k
    obtain ⟨-, -, hundo⟩ := forwardBackwardInverse s k hperm (hbuilt hperm)
    exact hundo x
  have hplugMap (x : Index) : plugMap s (plugMap s x) = x := hplug x
  constructor
  · intro x
    simp [wayOut, wayIn, hrotor, hplugMap]
  · intro y
    simp [wayOut, wayIn, hrotor, hplugMap]

theorem transform_involutive : Function.Involutive (transform s) := by
  obtain ⟨hout, hin⟩ := wayOut_wayIn_inverse hp hinv hwf
  obtain ⟨-, ⟨-, hrefl⟩, -⟩ := hwf
  have hreflMap (y : Index) : reflMap s (reflMap s y) = y := (hrefl y).1
  intro x
  simp only [transform_eq_wayOut_reflMap_wayIn]
  rw [hin, hreflMap, hout]

/-- A fixed point of `TRANSFORM` would be carried by the way in to one of the reflector. -/
theorem transform_ne_self (x : Index) : transform s x ≠ x := by
  obtain ⟨-, hin⟩ := wayOut_wayIn_inverse hp hinv hwf
  obtain ⟨-, ⟨-, hrefl⟩, -⟩ := hwf
  intro hfix
  have hcarried : wayIn s (transform s x) = wayIn s x := by rw [hfix]
  rw [transform_eq_wayOut_reflMap_wayIn, hin] at hcarried
  exact (hrefl (wayIn s x)).2 hcarried

end WellFormed

/-- Settles O47: the premises do not see the positions. -/
theorem transformIsInvolution : Obligations.TransformIsInvolution := fun s p hp hinv hwf x =>
  ⟨transform_involutive (s := { s with pos := p }) hp hinv hwf x,
    transform_ne_self (s := { s with pos := p }) hp hinv hwf x⟩

/-- Settles O48: the answer's index is that of the letter moved by a `TRANSFORM` without fixed points, at the positions
after the step. -/
theorem letterNeverEncryptsToItself : Obligations.LetterNeverEncryptsToItself := by
  refine fun s c hp hinv hwf => ⟨fun hc i hi => ?_, fun hc => ⟨_, exec_enc_of_nonletter hp hc, rfl⟩⟩
  obtain ⟨x, hx⟩ := (isLetter_iff_exists_index c).1 hc
  obtain ⟨t, d, ht, hr, hd, hdx⟩ := exec_letter_answers hp hx hi
  have hmoved : transform (stepRotors s) x ≠ x := by
    rw [stepRotors_frame]
    exact (transformIsInvolution s (stepRotors s).pos hp hinv hwf x).2
  refine ⟨t, d, ht, hr, hd, ?_⟩
  rintro rfl
  exact hmoved (Fin.ext (by omega))

end Sys2Proof.Machine
end

section
/-! The plugboard over a session: only a `PLUG` of the CFG phase writes it, and writing a pair of letters that are not
connected yet keeps it an involution (45_properties R217). -/

namespace Sys2Proof.Machine

/-! ## What one command does to the plugboard -/

/-- The phase and the plugboard are as they were. -/
def State.keepsPlugboard (s t : State) : Prop := t.phase = s.phase ∧ plugMap t = plugMap s

theorem keepsPlugboard_of_raisesFirst {i : Instr} {s t : State} (hr : RaisesFirst i s) (h : exec i s = .next t) :
    s.keepsPlugboard t := by
  obtain ⟨e, -, he⟩ := hr
  obtain rfl := Host.Outcome.next.inj (he.symm.trans h)
  exact ⟨rfl, rfl⟩

/-- A command that raises an error or answers at a state with this plugboard keeps it. -/
theorem keepsPlugboard_of_cases {i : Instr} {s t : State} {effect : Prop} (hcases : RaisesFirst i s ∨ effect)
    (heffect : effect → ∃ r u, exec i s = answer r u ∧ s.keepsPlugboard u) (h : exec i s = .next t) :
    s.keepsPlugboard t := by
  rcases hcases with hr | hdone
  · exact keepsPlugboard_of_raisesFirst hr h
  · obtain ⟨r, u, hu, hkeeps⟩ := heffect hdone
    obtain rfl := Host.Outcome.next.inj (hu.symm.trans h)
    exact hkeeps

/-- A write to another table than the plugboard. -/
theorem keepsPlugboard_writeTable (s : State) {tab : TableId} (a d : Index) (h : tab ≠ .plugboard) :
    s.keepsPlugboard (s.writeTable tab a d) :=
  ⟨rfl, funext fun _ => State.readTable_writeTable_of_ne s d fun hsame => h hsame.1.symm⟩

theorem keepsPlugboard_stepRotors (s : State) : s.keepsPlugboard (stepRotors s) := by
  rw [stepRotors_frame]
  exact ⟨rfl, rfl⟩

theorem eq_indexCode_of_indexOfField {f : BitVec 5} {x : Index} (h : indexOfField f = some x) : f = indexCode x := by
  apply BitVec.eq_of_toNat_eq
  rw [toNat_indexCode, (indexOfField_eq_some_iff f x).1 h]

/-- Every command but `PLUG` and `BUILD` keeps the phase and the plugboard, whether it raises an error or not. -/
theorem exec_keepsPlugboard {i : Instr} {s t : State} (hplug : ∀ a b, i ≠ .plug a b) (hbuild : i ≠ .build)
    (h : exec i s = .next t) : s.keepsPlugboard t := by
  cases i with
  | wrw r a v =>
    refine keepsPlugboard_of_cases (execWrw_cases r a v s) ?_ h
    rintro ⟨-, -, k, x, d, -, -, -, he⟩
    exact ⟨_, _, he, keepsPlugboard_writeTable s x d (by simp)⟩
  | wrf a v =>
    refine keepsPlugboard_of_cases (execWrf_cases a v s) ?_ h
    rintro ⟨-, -, x, d, -, -, he⟩
    exact ⟨_, _, he, keepsPlugboard_writeTable s x d (by simp)⟩
  | plug a b => exact absurd rfl (hplug a b)
  | notch r n =>
    refine keepsPlugboard_of_cases (execNotch_cases r n s) ?_ h
    rintro ⟨-, -, k, x, -, -, he⟩
    exact ⟨_, _, he, rfl, rfl⟩
  | ring r g =>
    refine keepsPlugboard_of_cases (execRing_cases r g s) ?_ h
    rintro ⟨-, -, k, -, he⟩
    exact ⟨_, _, he, rfl, rfl⟩
  | pos r p =>
    refine keepsPlugboard_of_cases (execPos_cases r p s) ?_ h
    rintro ⟨-, -, k, -, he⟩
    exact ⟨_, _, he, rfl, rfl⟩
  | build => exact absurd rfl hbuild
  | enc c =>
    refine keepsPlugboard_of_cases (execEnc_cases c s) ?_ h
    rintro ⟨-, -, ⟨-, he⟩ | ⟨x, -, he⟩⟩
    · exact ⟨_, _, he, rfl, rfl⟩
    · exact ⟨_, _, he, keepsPlugboard_stepRotors s⟩
  | enct c =>
    refine keepsPlugboard_of_cases (execEnct_cases c s) ?_ h
    rintro ⟨-, -, ⟨-, he⟩ | ⟨x, -, he⟩⟩
    · exact ⟨_, _, he, rfl, rfl⟩
    · exact ⟨_, _, he, keepsPlugboard_stepRotors s⟩
  | rdpos r =>
    refine keepsPlugboard_of_cases (execRdpos_cases r s) ?_ h
    rintro ⟨-, k, -, he⟩
    exact ⟨_, _, he, rfl, rfl⟩
  | rdst => exact keepsPlugboard_of_cases (.inr (execRdst_eq s)) (fun he => ⟨_, _, he, rfl, rfl⟩) h

theorem phase_of_raisesFirst_build {s : State} (hr : RaisesFirst .build s) : s.phase = .run := by
  obtain ⟨e, hfail, -⟩ := hr
  cases hp : s.phase with
  | cfg => simp [firstFailedCheck, hp] at hfail
  | run => rfl

/-- A command keeps phase and plugboard, is the `BUILD` that ends the CFG phase, or is a `PLUG` of two letters in it. -/
theorem exec_plugboard_cases {i : Instr} {s t : State} (h : exec i s = .next t) :
    (s.keepsPlugboard t ∧ (i = .build → s.phase = .run)) ∨
      (t.phase = .run ∧ plugMap t = plugMap s) ∨
      ∃ x y, s.phase = .cfg ∧ i = .plug (indexCode x) (indexCode y) ∧
        t = ((s.writeTable .plugboard x y).writeTable .plugboard y x).respond .ack := by
  by_cases hbuild : i = .build
  · subst hbuild
    rcases execBuild_cases s with hr | ⟨-, -, he⟩
    · exact .inl ⟨keepsPlugboard_of_raisesFirst hr h, fun _ => phase_of_raisesFirst_build hr⟩
    · obtain rfl := Host.Outcome.next.inj (he.symm.trans h)
      exact .inr (.inl ⟨rfl, rfl⟩)
  by_cases hplug : ∃ a b, i = .plug a b
  · obtain ⟨a, b, rfl⟩ := hplug
    rcases execPlug_cases a b s with hr | ⟨-, hp, x, y, hx, hy, he⟩
    · exact .inl ⟨keepsPlugboard_of_raisesFirst hr h, (absurd · hbuild)⟩
    · obtain rfl := Host.Outcome.next.inj (he.symm.trans h)
      rw [eq_indexCode_of_indexOfField hx, eq_indexCode_of_indexOfField hy]
      exact .inr (.inr ⟨x, y, hp, rfl, rfl⟩)
  · exact .inl ⟨exec_keepsPlugboard (fun a b hab => hplug ⟨a, b, hab⟩) hbuild h, (absurd · hbuild)⟩

/-! ## The pair a `PLUG` writes -/

theorem plugMap_plug (s : State) (x y z : Index) :
    plugMap ((s.writeTable .plugboard x y).writeTable .plugboard y x) z =
      if z = y then x else if z = x then y else plugMap s z := by
  rw [plugMap]
  split
  · next hzy => rw [hzy, State.readTable_writeTable_same]
  · next hzy =>
    rw [State.readTable_writeTable_of_ne _ _ (by simp [hzy])]
    split
    · next hzx => rw [hzx, State.readTable_writeTable_same]
    · next hzx => rw [State.readTable_writeTable_of_ne _ _ (by simp [hzx]), plugMap]

theorem wfpb_congr {s t : State} (h : plugMap t = plugMap s) (hs : s.WFPB) : t.WFPB := by
  have hinvol : Function.Involutive (plugMap s) := hs
  rw [← h] at hinvol
  exact hinvol

/-- An involution stays one when two of its fixed points are connected: no other letter is sent to either. -/
theorem wfpb_plug {s : State} {x y : Index} (h : s.WFPB) (hx : plugMap s x = x) (hy : plugMap s y = y) :
    ((s.writeTable .plugboard x y).writeTable .plugboard y x).WFPB := by
  have hinvol : Function.Involutive (plugMap s) := h
  intro z
  change plugMap _ (plugMap _ z) = z
  by_cases hzy : z = y
  · simp +contextual [plugMap_plug, hzy]
  by_cases hzx : z = x
  · simp [plugMap_plug, hzx]
  have hne {w : Index} (hw : plugMap s w = w) (hz : z ≠ w) : plugMap s z ≠ w := fun he =>
    hz (hinvol.injective (he.trans hw.symm))
  simp [plugMap_plug, hzy, hzx, hne hy hzy, hne hx hzx, hinvol z]

/-! ## The commands of a session -/

/-- No `PLUG` left in the CFG phase names a letter that is connected already. -/
def State.plugsFree (s : State) (is : List Instr) : Prop :=
  ∀ i ∈ cfgPhaseCommands is, ∀ x, indexCode x ∈ plugLetters i → plugMap s x = x

/-- What every command of the session keeps: the plugboard is an involution, and in the CFG phase the commands `is` to
come name each letter once at most and only letters not connected yet. -/
def State.plugInv (s : State) (is : List Instr) : Prop :=
  s.WFPB ∧ (s.phase = .cfg → plugsDisjoint is ∧ s.plugsFree is)

theorem cfgPhaseCommands_cons {i : Instr} (is : List Instr) (h : i ≠ .build) :
    cfgPhaseCommands (i :: is) = i :: cfgPhaseCommands is := by
  simp [cfgPhaseCommands, h]

theorem plugsDisjoint_cons {i : Instr} (is : List Instr) (h : i ≠ .build) : plugsDisjoint (i :: is) ↔
    (∀ j ∈ cfgPhaseCommands is, ∀ x, x ∈ plugLetters i → x ∉ plugLetters j) ∧ plugsDisjoint is := by
  rw [plugsDisjoint, cfgPhaseCommands_cons is h, List.pairwise_cons]
  rfl

theorem plugsFree_cons (s : State) {i : Instr} (is : List Instr) (h : i ≠ .build) : s.plugsFree (i :: is) ↔
    (∀ x, indexCode x ∈ plugLetters i → plugMap s x = x) ∧ s.plugsFree is := by
  rw [State.plugsFree, cfgPhaseCommands_cons is h, List.forall_mem_cons]
  rfl

theorem plugsFree_congr {s t : State} {is : List Instr} (h : plugMap t = plugMap s) (hs : s.plugsFree is) :
    t.plugsFree is := by
  rw [State.plugsFree, h]
  exact hs

theorem mem_plugLetters_plug (x y z : Index) :
    indexCode z ∈ plugLetters (.plug (indexCode x) (indexCode y)) ↔ z = x ∨ z = y := by
  have hcode (u v : Index) : indexCode u = indexCode v ↔ u = v := by
    rw [← BitVec.toNat_inj, toNat_indexCode, toNat_indexCode, Fin.ext_iff]
  have hx := x.isLt
  have hy := y.isLt
  have hletters : x.val ≤ 25 ∧ y.val ≤ 25 := by omega
  simp [plugLetters, toNat_indexCode, hletters, hcode]

/-- One command of the session. A `PLUG` connects letters that were free, and the commands after it name others. -/
theorem exec_plugInv {i : Instr} {is : List Instr} {s t : State} (hs : s.plugInv (i :: is)) (h : exec i s = .next t) :
    t.plugInv is := by
  obtain ⟨hwfpb, hcfg⟩ := hs
  rcases exec_plugboard_cases h with ⟨⟨hphase, hmap⟩, hbuild⟩ | ⟨hrun, hmap⟩ | ⟨x, y, hp, rfl, rfl⟩
  · refine ⟨wfpb_congr hmap hwfpb, fun ht => ?_⟩
    have hp : s.phase = .cfg := hphase.symm.trans ht
    have hne : i ≠ .build := fun hi => by simp [hbuild hi] at hp
    obtain ⟨hdisj, hfree⟩ := hcfg hp
    exact ⟨((plugsDisjoint_cons is hne).1 hdisj).2, plugsFree_congr hmap ((plugsFree_cons s is hne).1 hfree).2⟩
  · exact ⟨wfpb_congr hmap hwfpb, fun ht => by simp [hrun] at ht⟩
  · obtain ⟨hdisj, hfree⟩ := hcfg hp
    obtain ⟨hothers, hdisj'⟩ := (plugsDisjoint_cons is (by simp)).1 hdisj
    obtain ⟨hpair, hfree'⟩ := (plugsFree_cons s is (by simp)).1 hfree
    simp only [mem_plugLetters_plug] at hpair
    refine ⟨wfpb_plug hwfpb (hpair x (.inl rfl)) (hpair y (.inr rfl)), fun _ => ⟨hdisj', fun j hj z hz => ?_⟩⟩
    have hout : ¬(z = x ∨ z = y) := fun hzxy => hothers j hj _ ((mem_plugLetters_plug x y z).2 hzxy) hz
    rw [not_or] at hout
    obtain ⟨hzx, hzy⟩ := hout
    exact (plugMap_plug s x y z).trans (by simp [hzx, hzy, hfree' j hj z hz])

/-- A list of commands that gives a next state ran its first command to a next state. -/
theorem execAll_cons_next {i : Instr} {is : List Instr} {s t : State} (h : execAll (i :: is) s = .next t) :
    ∃ u, exec i s = .next u ∧ execAll is u = .next t := by
  rw [execAll] at h
  split at h
  · next u hu => exact ⟨u, hu, h⟩
  · cases h
  · cases h

theorem execAll_wfpb (is : List Instr) {s t : State} (hs : s.plugInv is) (h : execAll is s = .next t) : t.WFPB := by
  induction is generalizing s with
  | nil =>
    obtain rfl := Host.Outcome.next.inj h
    exact hs.1
  | cons i is ih =>
    obtain ⟨u, hu, hrest⟩ := execAll_cons_next h
    exact ih (exec_plugInv hs hu) hrest

/-- Settles O54: after reset the plugboard is the identity, so every letter is free. -/
theorem plugboardInvolution : Obligations.PlugboardInvolution := by
  intro s t is hreset hdisj h
  obtain ⟨n, l, rs, rfl⟩ := reset_or_hostReset_eq hreset
  exact execAll_wfpb is ⟨fun _ => rfl, fun _ => ⟨hdisj, fun _ _ _ _ => rfl⟩⟩ h

end Sys2Proof.Machine
end

section
/-! A word that no row of the opcode map accepts spells no command, because the word of a command is accepted by the
command's row (30_encoding R73; 60_exceptions R232). -/

namespace Sys2Proof

/-! ## A format that decodes a word has checked its rotor select -/

section RotorSelect

variable {w : Word} {i : Instr}

theorem wellFormed_of_decodeW {f : BitVec 2 → BitVec 5 → BitVec 5 → Instr}
    (hf : ∀ r x y, (f r x y).wellFormed = rotorSelectLegal r) (h : decodeW w f = .ok i) : i.wellFormed = true := by
  obtain ⟨hr, rfl⟩ : rotorSelectLegal (rField w) = true ∧ f (rField w) (iField w) (vField w) = i := by
    simpa [decodeW] using h
  exact (hf _ _ _).trans hr

theorem wellFormed_of_decodeT {f : BitVec 5 → BitVec 5 → Instr} (hf : ∀ x y, (f x y).wellFormed = true)
    (h : decodeT w f = .ok i) : i.wellFormed = true := by
  obtain ⟨-, rfl⟩ : _ ∧ f (iField w) (vField w) = i := by simpa [decodeT] using h
  exact hf _ _

theorem wellFormed_of_decodeR {f : BitVec 2 → BitVec 5 → Instr}
    (hf : ∀ r x, (f r x).wellFormed = rotorSelectLegal r) (h : decodeR w f = .ok i) : i.wellFormed = true := by
  obtain ⟨-, hr, rfl⟩ : _ ∧ rotorSelectLegal (rField w) = true ∧ f (rField w) (vField w) = i := by
    simpa [decodeR] using h
  exact (hf _ _).trans hr

theorem wellFormed_of_decodeQ {f : BitVec 2 → Instr} (hf : ∀ r, (f r).wellFormed = rotorSelectLegal r)
    (h : decodeQ w f = .ok i) : i.wellFormed = true := by
  obtain ⟨-, hr, rfl⟩ : _ ∧ rotorSelectLegal (rField w) = true ∧ f (rField w) = i := by simpa [decodeQ] using h
  exact (hf _).trans hr

theorem wellFormed_of_decodeZ {j : Instr} (hj : j.wellFormed = true) (h : decodeZ w j = .ok i) :
    i.wellFormed = true := by
  obtain ⟨-, rfl⟩ : _ ∧ j = i := by simpa [decodeZ] using h
  exact hj

theorem wellFormed_of_decodeC {f : Character → Instr} (hf : ∀ c, (f c).wellFormed = true)
    (h : decodeC w f = .ok i) : i.wellFormed = true := by
  obtain ⟨-, rfl⟩ : _ ∧ f (cField w) = i := by simpa [decodeC] using h
  exact hf _

/-- A command that decoding gives has a legal rotor select, if it has one. -/
theorem wellFormed_of_decode (h : decode w = .ok i) : i.wellFormed = true := by
  unfold decode at h
  split at h
  · exact wellFormed_of_decodeW (fun _ _ _ => rfl) h
  · exact wellFormed_of_decodeT (fun _ _ => rfl) h
  · exact wellFormed_of_decodeT (fun _ _ => rfl) h
  · exact wellFormed_of_decodeR (fun _ _ => rfl) h
  · exact wellFormed_of_decodeR (fun _ _ => rfl) h
  · exact wellFormed_of_decodeR (fun _ _ => rfl) h
  · exact wellFormed_of_decodeZ rfl h
  · exact wellFormed_of_decodeC (fun _ => rfl) h
  · exact wellFormed_of_decodeC (fun _ => rfl) h
  · exact wellFormed_of_decodeQ (fun _ => rfl) h
  · exact wellFormed_of_decodeZ rfl h
  · cases h

end RotorSelect

/-! ## The row of a command accepts its word -/

/-- The rotor field of the word of a well-formed command with a rotor operand names a rotor. -/
theorem rField_encode_ne_three {i : Instr} (hrotor : (opcodeRow i).hasRotor = true) (hwf : i.wellFormed = true) :
    rField (encode i) ≠ 3#2 := by
  cases i with
  | wrw r a v => simpa [encode, rField_wordW, Instr.wellFormed, rotorSelectLegal] using hwf
  | notch r n => simpa [encode, rField_wordW, Instr.wellFormed, rotorSelectLegal] using hwf
  | ring r g => simpa [encode, rField_wordW, Instr.wellFormed, rotorSelectLegal] using hwf
  | pos r p => simpa [encode, rField_wordW, Instr.wellFormed, rotorSelectLegal] using hwf
  | rdpos r => simpa [encode, rField_wordW, Instr.wellFormed, rotorSelectLegal] using hwf
  | _ => cases hrotor

theorem accepts_encode {i : Instr} (hwf : i.wellFormed = true) : (opcodeRow i).accepts (encode i) = true := by
  cases hrotor : (opcodeRow i).hasRotor with
  | false => simp [OpcodeRow.accepts, encode_and_mask, hrotor]
  | true => simp [OpcodeRow.accepts, encode_and_mask, hrotor, rField_encode_ne_three hrotor hwf]

theorem accepts_of_decode {w : Word} {i : Instr} (h : decode w = .ok i) : (opcodeRow i).accepts w = true := by
  obtain rfl := encode_of_decode h
  exact accepts_encode (wellFormed_of_decode h)

/-- Settles O8: had the word decoded, the row of its command would accept it. -/
theorem illegalWordAnswered : Obligations.IllegalWordAnswered := by
  refine ⟨fun s w rest hi hno => ?_, by decide⟩
  cases hd : decode w with
  | ok i =>
    have hyes := accepts_of_decode hd
    simp [hno _ (opcodeRow_mem_opcodeTable i)] at hyes
  | error why => exact Machine.step_of_illegal hi hd

end Sys2Proof
end

section
/-! What a command does to `FAULT` and `CAUSE` and what it answers: it raises the error of its first failed check, with
nothing else changed, or neither reads nor writes the error record (60_exceptions R233 to R241, R250). Only `RDST`
reads it. -/

namespace Sys2Proof.Machine

/-! ## The error record is not read -/

/-- The state with another error record and another record of the host's moves and the responses. -/
def State.withRecord (s : State) (f : Bool) (c : BitVec 3) (b : List HostEvent) (l : List Response) : State :=
  { s with fault := f, cause := c, inbox := b, responses := l }

theorem stepRotors_withRecord (s : State) (f : Bool) (c : BitVec 3) (b : List HostEvent) (l : List Response) :
    stepRotors (s.withRecord f c b l) = (stepRotors s).withRecord f c b l := by
  rw [stepRotors_frame, stepRotors_frame s, stepRotors_pos, stepRotors_pos]
  rfl

/-- A command keeps the record but for one response added, and neither its effect nor that response, which is no error,
depends on the record. -/
def RecordBlind (i : Instr) (s : State) : Prop :=
  ∃ (u : State) (r : Response), (∀ e, r ≠ .err e) ∧
    ∀ f c b l, exec i (s.withRecord f c b l) = .next (u.withRecord f c b (l ++ [r]))

theorem recordBlind_of_encryptLetter {i : Instr} {s : State} {x : Index}
    (h : ∀ f c b l, exec i (s.withRecord f c b l) = encryptLetter x (s.withRecord f c b l)) : RecordBlind i s := by
  refine ⟨stepRotors s, .sym (i2l (transform (stepRotors s) x).val), by simp, fun f c b l => ?_⟩
  rw [h, encryptLetter, stepRotors_withRecord]
  rfl

theorem isLetter_eq_false_of_l2i {c : Character} (h : l2i c = none) : isLetter c = false := by
  cases hc : isLetter c with
  | false => rfl
  | true => simp [l2i_of_letter hc] at h

theorem effect_of_cases {i : Instr} {s : State} {effect : Prop}
    (h : RaisesFirst i s ∨ (firstFailedCheck i s.phase = none ∧ effect)) (hnone : firstFailedCheck i s.phase = none) :
    effect := by
  rcases h with ⟨e, he, -⟩ | ⟨-, heffect⟩
  · simp [hnone] at he
  · exact heffect

/-- A command whose checks all hold, other than `RDST`, has one effect whatever the record. -/
theorem recordBlind_of_firstFailedCheck {i : Instr} {s : State} (hi : i ≠ .rdst)
    (h : firstFailedCheck i s.phase = none) : RecordBlind i s := by
  cases i with
  | wrw r a v =>
    obtain ⟨hp, k, x, d, hk, hx, hd, -⟩ := effect_of_cases (execWrw_cases r a v s) h
    rw [(rotorOfSelect_eq_some_iff r k).1 hk, eq_indexCode_of_indexOfField hx, eq_indexCode_of_indexOfField hd]
    exact ⟨s.writeTable (.wiring k) x d, .ack, by simp, fun f c b l => exec_wrw_of_cfg k x d hp⟩
  | wrf a v =>
    obtain ⟨hp, x, d, hx, hd, -⟩ := effect_of_cases (execWrf_cases a v s) h
    rw [eq_indexCode_of_indexOfField hx, eq_indexCode_of_indexOfField hd]
    exact ⟨s.writeTable .reflector x d, .ack, by simp, fun f c b l => exec_wrf_of_cfg x d hp⟩
  | plug a b =>
    obtain ⟨hp, x, y, hx, hy, -⟩ := effect_of_cases (execPlug_cases a b s) h
    rw [eq_indexCode_of_indexOfField hx, eq_indexCode_of_indexOfField hy]
    exact ⟨(s.writeTable .plugboard x y).writeTable .plugboard y x, .ack, by simp,
      fun f c b l => exec_plug_of_cfg x y hp⟩
  | notch r n =>
    obtain ⟨hp, k, x, hk, hx, -⟩ := effect_of_cases (execNotch_cases r n s) h
    rw [(rotorOfSelect_eq_some_iff r k).1 hk, eq_indexCode_of_indexOfField hx]
    exact ⟨s.addNotch k x, .ack, by simp, fun f c b l => exec_notch_of_cfg k x hp⟩
  | ring r g =>
    obtain ⟨hp, k, hk, -⟩ := effect_of_cases (execRing_cases r g s) h
    rw [(rotorOfSelect_eq_some_iff r k).1 hk]
    exact ⟨s.setRing k (indexReduced g), .ack, by simp, fun f c b l => exec_ring_of_cfg k g hp⟩
  | pos r p =>
    obtain ⟨hp, k, hk, -⟩ := effect_of_cases (execPos_cases r p s) h
    rw [(rotorOfSelect_eq_some_iff r k).1 hk]
    exact ⟨s.setPos k (indexReduced p), .ack, by simp, fun f c b l => exec_pos_of_cfg k p hp⟩
  | build =>
    obtain ⟨hp, -⟩ := effect_of_cases (execBuild_cases s) h
    exact ⟨s.computeInverses.setPhase .run, .ack, by simp, fun f c b l => exec_build_of_cfg hp⟩
  | enc ch =>
    obtain ⟨hp, ⟨hc, -⟩ | ⟨x, hx, -⟩⟩ := effect_of_cases (execEnc_cases ch s) h
    · exact ⟨s, .sym ch, by simp, fun f c b l => exec_enc_of_nonletter hp (isLetter_eq_false_of_l2i hc)⟩
    · exact recordBlind_of_encryptLetter fun f c b l => exec_enc_of_l2i hp hx
  | enct ch =>
    obtain ⟨hp, ⟨hc, -⟩ | ⟨x, hx, -⟩⟩ := effect_of_cases (execEnct_cases ch s) h
    · exact ⟨s, .ack, by simp, fun f c b l => exec_enct_of_nonletter hp (isLetter_eq_false_of_l2i hc)⟩
    · exact recordBlind_of_encryptLetter fun f c b l =>
        (exec_enct_eq_exec_enc (.inl (isLetter_of_l2i hx))).trans (exec_enc_of_l2i hp hx)
  | rdpos r =>
    obtain ⟨k, hk, -⟩ := effect_of_cases (execRdpos_cases r s) h
    rw [(rotorOfSelect_eq_some_iff r k).1 hk]
    exact ⟨s, .val (indexCode (s.pos.get k)), by simp, fun f c b l => withRotor_rotorSelect k _ _⟩
  | rdst => exact absurd rfl hi

/-! ## What a command answers -/

/-- What a command leaves: with a failed check, the error of that check recorded and answered and nothing else changed;
with none, one response that is no error, `FAULT`, `CAUSE` and the moves to come as they were. -/
inductive State.Answers (s : State) : Option ErrorKind → Response → State → Prop
  | error (e : ErrorKind) : s.Answers (some e) (.err e) (s.errorAnswered e e.code)
  | noError {r : Response} {t : State} (hr : ∀ e, r ≠ .err e) (hresp : t.responses = s.responses ++ [r])
      (hinbox : t.inbox = s.inbox) (hfault : t.fault = s.fault) (hcause : t.cause = s.cause) : s.Answers none r t

section Answers

variable {s t : State} {failed : Option ErrorKind} {r : Response}

theorem State.Answers.responses_eq (h : s.Answers failed r t) : t.responses = s.responses ++ [r] := by
  cases h with
  | error e => rfl
  | noError _ hresp _ _ _ => exact hresp

theorem State.Answers.inbox_eq (h : s.Answers failed r t) : t.inbox = s.inbox := by
  cases h with
  | error e => rfl
  | noError _ _ hinbox _ _ => exact hinbox

theorem State.Answers.eq_err_iff (h : s.Answers failed r t) (e : ErrorKind) : r = .err e ↔ failed = some e := by
  cases h with
  | error e' => simp
  | noError hr _ _ _ _ => simp [hr]

/-- The one response added is the one answered. -/
theorem State.Answers.response_unique (h : s.Answers failed r t) {r' : Response}
    (h' : t.responses = s.responses ++ [r']) : r' = r := by
  simpa [h.responses_eq, eq_comm] using h'

/-- An error answered is the error of the failed check, and the state left is `errorAnswered`. -/
theorem State.Answers.eq_errorAnswered {e : ErrorKind} (h : s.Answers failed r t)
    (ht : t.responses = s.responses ++ [.err e]) : failed = some e ∧ t = s.errorAnswered e e.code := by
  obtain rfl := h.response_unique ht
  cases h with
  | error => exact ⟨rfl, rfl⟩
  | noError hr _ _ _ _ => exact absurd rfl (hr e)

end Answers

/-- Every command in every state answers as its first failed check decides. -/
theorem exec_answers (i : Instr) (s : State) :
    ∃ t r, exec i s = .next t ∧ s.Answers (firstFailedCheck i s.phase) r t := by
  cases h : firstFailedCheck i s.phase with
  | some e => exact ⟨_, _, exec_eq_raise_of_firstFailedCheck h, .error e⟩
  | none =>
    by_cases hi : i = .rdst
    · subst hi
      exact ⟨_, .val s.status, execRdst_eq s, .noError (by simp) rfl rfl rfl rfl⟩
    · obtain ⟨u, r, hr, hexec⟩ := recordBlind_of_firstFailedCheck hi h
      exact ⟨_, r, hexec s.fault s.cause s.inbox s.responses, .noError hr rfl rfl rfl rfl⟩

theorem answers_of_exec {i : Instr} {s t : State} (h : exec i s = .next t) :
    ∃ r, s.Answers (firstFailedCheck i s.phase) r t := by
  obtain ⟨t', r, ht, ha⟩ := exec_answers i s
  obtain rfl := Host.Outcome.next.inj (ht.symm.trans h)
  exact ⟨r, ha⟩

/-- The error a command answers is the one its first failed check decides. -/
theorem exec_answers_err_iff (i : Instr) (s : State) (e : ErrorKind) :
    (∃ t, exec i s = .next t ∧ t.responses = s.responses ++ [.err e]) ↔ firstFailedCheck i s.phase = some e := by
  constructor
  · rintro ⟨t, ht, hresp⟩
    obtain ⟨r, ha⟩ := answers_of_exec ht
    exact (ha.eq_errorAnswered hresp).1
  · exact fun h => ⟨_, exec_eq_raise_of_firstFailedCheck h, rfl⟩

theorem step_of_decode {s : State} {w : Word} {rest : List HostEvent} {i : Instr}
    (hi : s.inbox = .command w :: rest) (hd : decode w = .ok i) : step s = exec i (s.setInbox rest) := by
  unfold step
  simp only [hi, hd]

/-- Every presented word is answered, a word that spells no command by an error. -/
theorem step_answers {s : State} {w : Word} {rest : List HostEvent} (hi : s.inbox = .command w :: rest) :
    ∃ t r failed, step s = .next t ∧ (s.setInbox rest).Answers failed r t := by
  cases hd : decode w with
  | ok i =>
    obtain ⟨t, r, ht, ha⟩ := exec_answers i (s.setInbox rest)
    exact ⟨t, r, _, (step_of_decode hi hd).trans ht, ha⟩
  | error why => exact ⟨_, _, _, step_of_illegal hi hd, .error .illegalCommand⟩

theorem answers_of_step {s t : State} {w : Word} {rest : List HostEvent} (hi : s.inbox = .command w :: rest)
    (h : step s = .next t) : ∃ r failed, (s.setInbox rest).Answers failed r t := by
  obtain ⟨t', r, failed, ht, ha⟩ := step_answers hi
  obtain rfl := Host.Outcome.next.inj (ht.symm.trans h)
  exact ⟨r, failed, ha⟩

/-! ## The statements -/

/-- The four commands of the RUN phase pass every check there. -/
theorem firstFailedCheck_run_eq_none (c : Character) (k : Rotor) :
    ∀ i ∈ [Instr.enc c, .enct c, .rdpos (rotorSelect k), .rdst], firstFailedCheck i .run = none := by
  have hk : rotorSelect k ≠ 3#2 := by cases k <;> decide
  simp [firstFailedCheck, hk]

/-- Settles O25: a presented word is answered once, and a command that passes every check without an error. -/
theorem everyCommandAnswersOnce : Obligations.EveryCommandAnswersOnce := by
  refine ⟨fun s w rest hi => ?_, fun s c k hp i hi => ?_⟩
  · obtain ⟨t, r, failed, ht, ha⟩ := step_answers hi
    exact ⟨t, r, ht, ha.responses_eq, ha.inbox_eq⟩
  · obtain ⟨t, r, ht, ha⟩ := exec_answers i s
    rw [hp, firstFailedCheck_run_eq_none c k i hi] at ha
    cases ha with
    | noError hr hresp _ hfault hcause => exact ⟨t, r, ht, hresp, hr, hfault, hcause⟩

/-- Settles O26: of the two ways a word can be answered, only the one that leaves `errorAnswered` answers an error. -/
theorem errorsChangeOnlyStatus : Obligations.ErrorsChangeOnlyStatus := by
  intro s t w rest e hi h hresp
  obtain ⟨r, failed, ha⟩ := answers_of_step hi h
  exact (ha.eq_errorAnswered hresp).2

/-- Settles O27: the response is an error exactly when a check failed, and then the error of that check. -/
theorem firstFailedCheckDecides : Obligations.FirstFailedCheckDecides := by
  refine ⟨fun s i => ?_, fun s w rest hi hw => ?_⟩
  · obtain ⟨t, r, ht, ha⟩ := exec_answers i s
    exact ⟨t, r, ht, ha.responses_eq, ha.eq_err_iff⟩
  · obtain ⟨why, hd⟩ := exists_error_of_forall_ne_ok hw
    exact step_of_illegal hi hd

/-- A command other than `RDST` has the same effect whatever `FAULT` and `CAUSE` hold: the checks do not see them, an
error writes only them, and past the checks the record is not read. -/
theorem exec_withFaultCause {s t : State} {i : Instr} (f : Bool) (c : BitVec 3) (hi : i ≠ .rdst)
    (h : exec i s = .next t) :
    ∃ f' c', exec i { s with fault := f, cause := c } = .next { t with fault := f', cause := c' } := by
  cases hfirst : firstFailedCheck i s.phase with
  | some e =>
    obtain rfl := Host.Outcome.next.inj ((exec_eq_raise_of_firstFailedCheck hfirst).symm.trans h)
    exact ⟨true, if f then c else e.code,
      exec_eq_raise_of_firstFailedCheck (s := { s with fault := f, cause := c }) hfirst⟩
  | none =>
    obtain ⟨u, r, -, hexec⟩ := recordBlind_of_firstFailedCheck hi hfirst
    obtain rfl := Host.Outcome.next.inj ((hexec s.fault s.cause s.inbox s.responses).symm.trans h)
    exact ⟨f, c, hexec f c s.inbox s.responses⟩

/-- Settles O30: an error recorded over a set `FAULT` keeps it and its `CAUSE`, over a clear one sets both, and every
other answer leaves them. -/
theorem faultRecordIsSticky : Obligations.FaultRecordIsSticky := by
  refine ⟨fun s => ⟨rfl, rfl⟩, fun s t w rest r hi h hresp => ?_, fun s t f c i => exec_withFaultCause f c⟩
  obtain ⟨r', failed, ha⟩ := answers_of_step hi h
  obtain rfl := ha.response_unique hresp
  cases ha with
  | error e => simp +contextual [State.errorAnswered]
  | noError hr _ _ hfault hcause => simp [hfault, hcause, hr]

end Sys2Proof.Machine
end

section
/-! The commands each phase refuses, and the fields a command refuses: the three checks of 60_exceptions R237 taken
apart (60_exceptions R233, R234). -/

namespace Sys2Proof.Machine

/-! ## Which check fails first -/

/-- The phases that allow a command (60_exceptions R233). -/
def allowedIn : Instr → Phase → Bool
  | .enc _, p => p == .run
  | .enct _, p => p == .run
  | .rdpos _, _ => true
  | .rdst, _ => true
  | _, p => p == .cfg

/-- Every field that stands for a letter holds one (60_exceptions R234). -/
def lettersLegal : Instr → Bool
  | .wrw _ i v => !decide (25 < i.toNat) && !decide (25 < v.toNat)
  | .wrf i v => !decide (25 < i.toNat) && !decide (25 < v.toNat)
  | .plug a b => !decide (25 < a.toNat) && !decide (25 < b.toNat)
  | .notch _ n => !decide (25 < n.toNat)
  | _ => true

/-- The three checks of 60_exceptions R237, each a property of its own. -/
theorem firstFailedCheck_eq (i : Instr) (p : Phase) : firstFailedCheck i p =
    if !i.wellFormed then some .illegalCommand
    else if !allowedIn i p then some .wrongPhase
    else if !lettersLegal i then some .invalidSymbol
    else none := by
  cases i <;> rfl

theorem firstFailedCheck_eq_wrongPhase_iff (i : Instr) (p : Phase) :
    firstFailedCheck i p = some .wrongPhase ↔ i.wellFormed = true ∧ allowedIn i p = false := by
  rw [firstFailedCheck_eq]
  cases i.wellFormed <;> cases allowedIn i p <;> cases lettersLegal i <;> decide

theorem firstFailedCheck_eq_invalidSymbol_iff (i : Instr) (p : Phase) :
    firstFailedCheck i p = some .invalidSymbol ↔
      i.wellFormed = true ∧ allowedIn i p = true ∧ lettersLegal i = false := by
  rw [firstFailedCheck_eq]
  cases i.wellFormed <;> cases allowedIn i p <;> cases lettersLegal i <;> decide

theorem Phase.not_cfg_iff (p : Phase) : ¬p = .cfg ↔ p = .run := by
  cases p <;> decide

theorem Phase.not_run_iff (p : Phase) : ¬p = .run ↔ p = .cfg := by
  cases p <;> decide

/-- A command with a letter field is one the RUN phase refuses. -/
theorem lettersLegal_of_allowedIn_run {i : Instr} (h : allowedIn i .run = true) : lettersLegal i = true := by
  cases i with
  | enc c => rfl
  | enct c => rfl
  | rdpos r => rfl
  | rdst => rfl
  | _ => cases h

/-- Settles O28: a legal command answers `WRONG_PHASE` exactly in a phase that does not allow it. -/
theorem wrongPhaseRefused : Obligations.WrongPhaseRefused := by
  refine ⟨fun s i hwf => ?_, by decide⟩
  rw [exec_answers_err_iff, firstFailedCheck_eq_wrongPhase_iff, and_iff_right hwf]
  cases i <;> simp [allowedIn, Phase.not_cfg_iff, Phase.not_run_iff]

/-- Settles O29: in CFG every command with a letter field is allowed, so its fields decide; in RUN none is. -/
theorem invalidSymbolRefused : Obligations.InvalidSymbolRefused := by
  refine ⟨fun s i hwf hp => ?_, fun s t i h hresp => ?_, fun s t i hp h hresp => ?_, by decide⟩
  · rw [exec_answers_err_iff, firstFailedCheck_eq_invalidSymbol_iff, and_iff_right hwf, hp]
    cases i <;> simp [allowedIn, lettersLegal, -not_lt, imp_iff_not_or]
  · obtain ⟨r, ha⟩ := answers_of_exec h
    obtain ⟨-, rfl⟩ := ha.eq_errorAnswered hresp
    exact ⟨rfl, rfl, rfl, rfl, rfl⟩
  · have hfirst := (exec_answers_err_iff i s .invalidSymbol).1 ⟨t, h, hresp⟩
    rw [firstFailedCheck_eq_invalidSymbol_iff, hp] at hfirst
    obtain ⟨-, hallowed, hletters⟩ := hfirst
    simp [lettersLegal_of_allowedIn_run hallowed] at hletters

end Sys2Proof.Machine
end

section
/-! Words and commands: decoding undoes encoding, the opcode map selects the command of a word, and which words spell
none (30_encoding R72, R73, R76). -/

namespace Sys2Proof

/-! ## Decoding undoes encoding -/

theorem low10_wordW_zero (op : BitVec 4) (r : BitVec 2) : (wordW op r 0#5 0#5).extractLsb' 0 10 = 0#10 := by
  rw [low10_wordW]
  rfl

theorem low12_wordW_zero (op : BitVec 4) : (wordW op 0#2 0#5 0#5).extractLsb' 0 12 = 0#12 := by
  rw [low12_wordW]
  rfl

section Formats

variable {op : BitVec 4}

theorem decodeW_wordW {r : BitVec 2} (i v : BitVec 5) (f : BitVec 2 → BitVec 5 → BitVec 5 → Instr)
    (hr : rotorSelectLegal r = true) : decodeW (wordW op r i v) f = .ok (f r i v) := by
  simp [decodeW, rField_wordW, iField_wordW, vField_wordW, hr]

theorem decodeT_wordW (i v : BitVec 5) (f : BitVec 5 → BitVec 5 → Instr) :
    decodeT (wordW op 0#2 i v) f = .ok (f i v) := by
  simp [decodeT, rField_wordW, iField_wordW, vField_wordW]

theorem decodeR_wordW {r : BitVec 2} (v : BitVec 5) (f : BitVec 2 → BitVec 5 → Instr)
    (hr : rotorSelectLegal r = true) : decodeR (wordW op r 0#5 v) f = .ok (f r v) := by
  simp [decodeR, rField_wordW, iField_wordW, vField_wordW, hr]

theorem decodeQ_wordW {r : BitVec 2} (f : BitVec 2 → Instr) (hr : rotorSelectLegal r = true) :
    decodeQ (wordW op r 0#5 0#5) f = .ok (f r) := by
  simp [decodeQ, rField_wordW, low10_wordW_zero, hr]

theorem decodeZ_wordW (i : Instr) : decodeZ (wordW op 0#2 0#5 0#5) i = .ok i := by
  simp [decodeZ, low12_wordW_zero]

theorem decodeC_wordC (c : Character) (f : Character → Instr) : decodeC (wordC op c) f = .ok (f c) := by
  simp [decodeC, zeros_wordC, cField_wordC]

end Formats

/-- The word of a command has the command's opcode, which selects its format, and the format reads its fields back. -/
theorem decode_encode {i : Instr} (h : i.wellFormed = true) : decode (encode i) = .ok i := by
  cases i with
  | wrw r a v => simpa [decode, encode, opField_wordW] using decodeW_wordW a v .wrw h
  | wrf a v => simpa [decode, encode, opField_wordW] using decodeT_wordW a v .wrf
  | plug a b => simpa [decode, encode, opField_wordW] using decodeT_wordW a b .plug
  | notch r n => simpa [decode, encode, opField_wordW] using decodeR_wordW n .notch h
  | ring r g => simpa [decode, encode, opField_wordW] using decodeR_wordW g .ring h
  | pos r p => simpa [decode, encode, opField_wordW] using decodeR_wordW p .pos h
  | build => simpa [decode, encode, opField_wordW] using decodeZ_wordW .build
  | enc c => simpa [decode, encode, opField_wordC] using decodeC_wordC c .enc
  | enct c => simpa [decode, encode, opField_wordC] using decodeC_wordC c .enct
  | rdpos r => simpa [decode, encode, opField_wordW] using decodeQ_wordW .rdpos h
  | rdst => simpa [decode, encode, opField_wordW] using decodeZ_wordW .rdst

/-- Settles O1: command by command, the format of its opcode reads back the fields its word was made of. -/
theorem decodeOfEncode : Obligations.DecodeOfEncode := fun _ h => decode_encode h

/-- Settles O2: decoding checks every bit it does not read, and the rotor select. -/
theorem encodeOfDecode : Obligations.EncodeOfDecode := fun _ _ h => ⟨encode_of_decode h, wellFormed_of_decode h⟩

/-- Settles O6: each word by evaluation. -/
theorem specWordsDecode : Obligations.SpecWordsDecode := by
  unfold Obligations.SpecWordsDecode
  decide

/-! ## The opcode map (30_encoding R73) -/

/-- A field that a mask covers is the pattern's. -/
theorem field_of_and {w m p : Word} (start len : Nat) (h : w &&& m = p)
    (hm : m.extractLsb' start len = BitVec.allOnes len) : w.extractLsb' start len = p.extractLsb' start len := by
  rw [← h, BitVec.extractLsb'_and, hm, BitVec.and_allOnes]

theorem exists_opcodeRow_eq_of_mem {row : OpcodeRow} (h : row ∈ opcodeTable) : ∃ i, opcodeRow i = row := by
  simp only [opcodeTable, List.mem_cons, List.not_mem_nil, or_false] at h
  rcases h with h | h | h | h | h | h | h | h | h | h | h <;> exact ⟨_, h.symm⟩

/-- A word a row accepts is the word of a well-formed command of that row: the mask fixes the opcode and the fields the
format lacks, and the other fields are the command's operands. -/
theorem exists_encode_eq_of_accepts {row : OpcodeRow} (hrow : row ∈ opcodeTable) {w : Word}
    (h : row.accepts w = true) : ∃ i : Instr, encode i = w ∧ i.wellFormed = true ∧ opcodeRow i = row := by
  obtain ⟨hand, hr⟩ : w &&& row.mask = row.pattern ∧ (row.hasRotor = true → rotorSelectLegal (rField w) = true) := by
    simpa [OpcodeRow.accepts, rotorSelectLegal, imp_iff_not_or] using h
  obtain ⟨j, rfl⟩ := exists_opcodeRow_eq_of_mem hrow
  have hop : opField w = opField (encode j) :=
    (field_of_and 12 4 hand (opField_mask_of_mem_opcodeTable _ hrow)).trans (opField_encode j).symm
  have hw := wordW_fields w
  rw [hop] at hw
  cases j with dsimp only [opcodeRow] at hand
  | wrw _ _ _ => exact ⟨.wrw _ _ _, by simpa [encode, opField_wordW] using hw, hr rfl, rfl⟩
  | wrf _ _ =>
    have hz : rField w = 0#2 := field_of_and 10 2 hand rfl
    exact ⟨.wrf (iField w) (vField w), by simpa [encode, opField_wordW, hz] using hw, rfl, rfl⟩
  | plug _ _ =>
    have hz : rField w = 0#2 := field_of_and 10 2 hand rfl
    exact ⟨.plug (iField w) (vField w), by simpa [encode, opField_wordW, hz] using hw, rfl, rfl⟩
  | notch _ _ =>
    have hz : iField w = 0#5 := field_of_and 5 5 hand rfl
    exact ⟨.notch _ _, by simpa [encode, opField_wordW, hz] using hw, hr rfl, rfl⟩
  | ring _ _ =>
    have hz : iField w = 0#5 := field_of_and 5 5 hand rfl
    exact ⟨.ring _ _, by simpa [encode, opField_wordW, hz] using hw, hr rfl, rfl⟩
  | pos _ _ =>
    have hz : iField w = 0#5 := field_of_and 5 5 hand rfl
    exact ⟨.pos _ _, by simpa [encode, opField_wordW, hz] using hw, hr rfl, rfl⟩
  | build => exact ⟨.build, (BitVec.and_allOnes.symm.trans hand).symm, rfl, rfl⟩
  | enc _ =>
    have hwC := wordC_fields w (field_of_and 8 4 hand rfl)
    exact ⟨.enc (cField w), by simpa [encode, hop, opField_wordC] using hwC, rfl, rfl⟩
  | enct _ =>
    have hwC := wordC_fields w (field_of_and 8 4 hand rfl)
    exact ⟨.enct (cField w), by simpa [encode, hop, opField_wordC] using hwC, rfl, rfl⟩
  | rdpos _ =>
    obtain ⟨hi, hv⟩ := fields_of_low10 (field_of_and 0 10 hand rfl)
    exact ⟨.rdpos _, by simpa [encode, opField_wordW, hi, hv] using hw, hr rfl, rfl⟩
  | rdst => exact ⟨.rdst, (BitVec.and_allOnes.symm.trans hand).symm, rfl, rfl⟩

/-- Settles O4: the word of a command is accepted by its row, and a word a row accepts is the word of a command of that
row, which decodes to it. -/
theorem opcodeMapSelectsCommand : Obligations.OpcodeMapSelectsCommand := by
  refine fun w => ⟨fun i h => ⟨accepts_of_decode h, opcodeRow_mem_opcodeTable i⟩, fun row hrow h => ?_⟩
  obtain ⟨i, rfl, hwf, hi⟩ := exists_encode_eq_of_accepts hrow h
  exact ⟨i, decode_encode hwf, hi⟩

/-! ## The words that spell no command (30_encoding R76) -/

section Refused

variable {w : Word}

theorem exists_legalIf_eq_error {ok : Bool} {why : Illegal} {rest : Except Illegal Instr} :
    (∃ e, legalIf ok why rest = .error e) ↔ ok = false ∨ ∃ e, rest = .error e := by
  cases ok <;> simp [legalIf]

theorem rotorSelectLegal_eq_false_iff (r : BitVec 2) : rotorSelectLegal r = false ↔ r = 3#2 := by
  simp [rotorSelectLegal]

theorem decodeW_error_iff (f : BitVec 2 → BitVec 5 → BitVec 5 → Instr) :
    (∃ e, decodeW w f = .error e) ↔ rField w = 3#2 := by
  simp [decodeW, exists_legalIf_eq_error, rotorSelectLegal_eq_false_iff]

theorem decodeT_error_iff (f : BitVec 5 → BitVec 5 → Instr) : (∃ e, decodeT w f = .error e) ↔ rField w ≠ 0#2 := by
  simp [decodeT, exists_legalIf_eq_error]

theorem decodeR_error_iff (f : BitVec 2 → BitVec 5 → Instr) :
    (∃ e, decodeR w f = .error e) ↔ rField w = 3#2 ∨ iField w ≠ 0#5 := by
  simp [decodeR, exists_legalIf_eq_error, rotorSelectLegal_eq_false_iff, or_comm]

theorem decodeQ_error_iff (f : BitVec 2 → Instr) :
    (∃ e, decodeQ w f = .error e) ↔ rField w = 3#2 ∨ w.extractLsb' 0 10 ≠ 0#10 := by
  simp [decodeQ, exists_legalIf_eq_error, rotorSelectLegal_eq_false_iff, or_comm]

theorem decodeZ_error_iff (i : Instr) : (∃ e, decodeZ w i = .error e) ↔ w.extractLsb' 0 12 ≠ 0#12 := by
  simp [decodeZ, exists_legalIf_eq_error]

theorem decodeC_error_iff (f : Character → Instr) :
    (∃ e, decodeC w f = .error e) ↔ w.extractLsb' 8 4 ≠ 0#4 := by
  simp [decodeC, exists_legalIf_eq_error]

end Refused

/-- The opcodes the map has no row for. -/
theorem reserved_opcode (op : BitVec 4)
    (h : op ∉ [0x1#4, 0x2#4, 0x3#4, 0x4#4, 0x5#4, 0x6#4, 0x7#4, 0x8#4, 0x9#4, 0xA#4, 0xB#4]) :
    op = 0x0#4 ∨ op = 0xC#4 ∨ op = 0xD#4 ∨ op = 0xE#4 ∨ op = 0xF#4 := by
  revert op
  decide

/-- Settles O5: the opcode selects one format, whose checks are the cases listed for that opcode. -/
theorem illegalWordCases : Obligations.IllegalWordCases := by
  intro w
  unfold decode
  split
  · next hop => simp [hop, decodeW_error_iff]
  · next hop => simp [hop, decodeT_error_iff]
  · next hop => simp [hop, decodeT_error_iff]
  · next hop => simp [hop, decodeR_error_iff]
  · next hop => simp [hop, decodeR_error_iff]
  · next hop => simp [hop, decodeR_error_iff]
  · next hop => simp [hop, decodeZ_error_iff]
  · next hop => simp [hop, decodeC_error_iff]
  · next hop => simp [hop, decodeC_error_iff]
  · next hop => simp [hop, decodeQ_error_iff]
  · next hop => simp [hop, decodeZ_error_iff]
  · have hreserved := reserved_opcode (opField w) (by simp; tauto)
    exact ⟨fun _ => .inl hreserved, fun _ => ⟨_, rfl⟩⟩

end Sys2Proof
end

section
/-! The step by the host's next move, and what every step keeps: the canonical tables, a legal `STATUS` and `INV` built
in the RUN phase (10_state sections 4 and 5; 60_exceptions sections 3 to 6). -/

namespace Sys2Proof.Machine

/-! ## The host's next move -/

theorem step_of_reset {s : State} {rest : List HostEvent} (hi : s.inbox = .reset :: rest) :
    step s = .next (s.setInbox rest).hostReset := by
  rw [step, hi]

theorem step_of_idle {s : State} (hi : s.inbox = []) : step s = .next s := by
  rw [step, hi]

/-- Settles O7: the arm of `step` for a word that decodes. -/
theorem stepRunsDecodedCommand : Obligations.StepRunsDecodedCommand := fun _ _ _ _ => step_of_decode

/-- Settles O9: the arms of `step` for a reset and for no move. -/
theorem hostMovesBetweenCommands : Obligations.HostMovesBetweenCommands :=
  ⟨fun _ _ => step_of_reset, fun _ => step_of_idle⟩

/-! ## The error of code 4 -/

/-- Of the four errors, the checks fail with the first three only. -/
theorem firstFailedCheck_ne_malformedConfiguration (i : Instr) (p : Phase) :
    firstFailedCheck i p ≠ some .malformedConfiguration := by
  rw [firstFailedCheck_eq]
  cases i.wellFormed <;> cases allowedIn i p <;> cases lettersLegal i <;> decide

/-- A presented word is answered with the error of a failed check, none of code 4, or without an error. -/
theorem answers_raisable_of_step {s t : State} {w : Word} {rest : List HostEvent} (hi : s.inbox = .command w :: rest)
    (h : step s = .next t) :
    ∃ r failed, (s.setInbox rest).Answers failed r t ∧ failed ≠ some .malformedConfiguration := by
  cases hd : decode w with
  | ok i =>
    obtain ⟨r, ha⟩ := answers_of_exec ((step_of_decode hi hd).symm.trans h)
    exact ⟨r, _, ha, firstFailedCheck_ne_malformedConfiguration i _⟩
  | error why =>
    obtain rfl := Host.Outcome.next.inj ((step_of_illegal hi hd).symm.trans h)
    exact ⟨_, _, .error .illegalCommand, by simp⟩

/-- Settles O31: an error answered is that of the check that failed, which has another code. -/
theorem malformedConfigurationNeverRaised : Obligations.MalformedConfigurationNeverRaised := by
  intro s t w rest hi h hresp
  obtain ⟨r, failed, ha, hne⟩ := answers_raisable_of_step hi h
  exact hne (ha.eq_errorAnswered hresp).1

/-! ## What a command does to the tables and the phase -/

/-- The tables, the session and the phase are as they were. -/
def State.sameTablesAndPhase (s t : State) : Prop := t.mem = s.mem ∧ t.session = s.session ∧ t.phase = s.phase

theorem eq_respond_of_exec {i : Instr} {r : Response} {s u t : State} (he : exec i s = answer r u)
    (h : exec i s = .next t) : t = u.respond r :=
  Host.Outcome.next.inj (h.symm.trans he)

theorem sameTablesAndPhase_stepRotors (s : State) : s.sameTablesAndPhase (stepRotors s) := by
  simp [State.sameTablesAndPhase]

/-- A command leaves the tables and the phase, writes tables in the CFG phase and stays in it, or is the `BUILD` that
ends it. -/
theorem exec_tables_cases {i : Instr} {s t : State} (h : exec i s = .next t) :
    s.sameTablesAndPhase t ∨ (s.phase = .cfg ∧ t.phase = .cfg ∧ (s.mem.wf → t.mem.wf)) ∨
      (i = .build ∧ s.phase = .cfg ∧ t = (s.computeInverses.setPhase .run).respond .ack) := by
  cases hfirst : firstFailedCheck i s.phase with
  | some e =>
    obtain rfl := Host.Outcome.next.inj ((exec_eq_raise_of_firstFailedCheck hfirst).symm.trans h)
    exact .inl ⟨rfl, rfl, rfl⟩
  | none =>
    cases i with
    | wrw r a v =>
      obtain ⟨hp, k, x, d, -, -, -, he⟩ := effect_of_cases (execWrw_cases r a v s) hfirst
      obtain rfl := eq_respond_of_exec he h
      exact .inr (.inl ⟨hp, hp, Memory.write_wf _ _ _⟩)
    | wrf a v =>
      obtain ⟨hp, x, d, -, -, he⟩ := effect_of_cases (execWrf_cases a v s) hfirst
      obtain rfl := eq_respond_of_exec he h
      exact .inr (.inl ⟨hp, hp, Memory.write_wf _ _ _⟩)
    | plug a b =>
      obtain ⟨hp, x, y, -, -, he⟩ := effect_of_cases (execPlug_cases a b s) hfirst
      obtain rfl := eq_respond_of_exec he h
      exact .inr (.inl ⟨hp, hp, fun hwf => Memory.write_wf _ _ _ (Memory.write_wf _ _ _ hwf)⟩)
    | notch r n =>
      obtain ⟨-, k, x, -, -, he⟩ := effect_of_cases (execNotch_cases r n s) hfirst
      obtain rfl := eq_respond_of_exec he h
      exact .inl ⟨rfl, rfl, rfl⟩
    | ring r g =>
      obtain ⟨-, k, -, he⟩ := effect_of_cases (execRing_cases r g s) hfirst
      obtain rfl := eq_respond_of_exec he h
      exact .inl ⟨rfl, rfl, rfl⟩
    | pos r p =>
      obtain ⟨-, k, -, he⟩ := effect_of_cases (execPos_cases r p s) hfirst
      obtain rfl := eq_respond_of_exec he h
      exact .inl ⟨rfl, rfl, rfl⟩
    | build =>
      obtain ⟨hp, he⟩ := effect_of_cases (execBuild_cases s) hfirst
      exact .inr (.inr ⟨rfl, hp, eq_respond_of_exec he h⟩)
    | enc c =>
      obtain ⟨-, ⟨-, he⟩ | ⟨x, -, he⟩⟩ := effect_of_cases (execEnc_cases c s) hfirst
      · obtain rfl := eq_respond_of_exec he h
        exact .inl ⟨rfl, rfl, rfl⟩
      · obtain rfl := eq_respond_of_exec he h
        exact .inl (sameTablesAndPhase_stepRotors s)
    | enct c =>
      obtain ⟨-, ⟨-, he⟩ | ⟨x, -, he⟩⟩ := effect_of_cases (execEnct_cases c s) hfirst
      · obtain rfl := eq_respond_of_exec he h
        exact .inl ⟨rfl, rfl, rfl⟩
      · obtain rfl := eq_respond_of_exec he h
        exact .inl (sameTablesAndPhase_stepRotors s)
    | rdpos r =>
      obtain ⟨k, -, he⟩ := effect_of_cases (execRdpos_cases r s) hfirst
      obtain rfl := eq_respond_of_exec he h
      exact .inl ⟨rfl, rfl, rfl⟩
    | rdst =>
      obtain rfl := eq_respond_of_exec (execRdst_eq s) h
      exact .inl ⟨rfl, rfl, rfl⟩

/-! ## The phase (60_exceptions section 5) -/

/-- Settles O32: a reset ends in CFG and a `BUILD` in CFG ends in RUN; every other move keeps the phase. -/
theorem phaseChangesOnlyByBuildOrReset : Obligations.PhaseChangesOnlyByBuildOrReset := by
  intro s t h hne
  rcases step_cases h with ⟨-, rfl⟩ | ⟨rest, hi, rfl⟩ | ⟨w, rest, hi, ⟨i, hd, hx⟩ | ⟨why, -, rfl⟩⟩
  · exact absurd rfl hne
  · exact .inr ⟨(Phase.not_cfg_iff _).1 hne.symm, rfl, rest, hi⟩
  · rcases exec_tables_cases hx with ⟨-, -, hphase⟩ | ⟨hp, ht, -⟩ | ⟨rfl, hp, rfl⟩
    · exact absurd hphase hne
    · exact absurd (ht.trans hp.symm) hne
    · obtain rfl := encode_of_decode hd
      exact .inl ⟨hp, rfl, rest, hi⟩
  · exact absurd rfl hne

/-! ## The invariant -/

/-- A `STATUS` stays legal when an answer other than the error of code 4 is given. -/
theorem statusLegal_of_answers {s t : State} {failed : Option ErrorKind} {r : Response} (ha : s.Answers failed r t)
    (hne : failed ≠ some .malformedConfiguration) (hs : s.statusLegal) : t.statusLegal := by
  cases ha with
  | noError _ _ _ hfault hcause => simpa [State.statusLegal, hfault, hcause] using hs
  | error e =>
    obtain ⟨hiff, hle⟩ := hs
    have hcode : e.code ≠ 0#3 ∧ e.code.toNat ≤ 3 := by
      cases e with
      | malformedConfiguration => exact absurd rfl hne
      | _ => decide
    cases hf : s.fault with
    | false => simpa [State.statusLegal, State.errorAnswered, hf] using hcode
    | true => simpa [State.statusLegal, State.errorAnswered, hf] using And.intro (by simpa [hf] using hiff) hle

theorem inverseBuilt_of_sameTablesAndPhase {s t : State} (h : s.sameTablesAndPhase t) (hs : s.inverseBuilt) :
    t.inverseBuilt := by
  obtain ⟨hmem, hsession, hphase⟩ := h
  rw [State.inverseBuilt, State.readTable_congr hmem hsession, hmem, hphase]
  exact hs

theorem inverseBuilt_of_cfg {s : State} (hp : s.phase = .cfg) : s.inverseBuilt := by
  simp [State.inverseBuilt, hp]

/-- `BUILD` writes all of `INV`, the inverse of every `W[k]` that is a permutation. -/
theorem inverseBuilt_of_build (s : State) : ((s.computeInverses.setPhase .run).respond .ack).inverseBuilt := by
  refine fun _ k => ⟨s.isWritten_computeInverses k, fun hperm => ?_⟩
  rw [State.readTable_respond, State.readTable_setPhase, State.readTable_computeInverses_wiring] at *
  exact State.computeInverses_leftInverse hperm

/-- What a command keeps of the tables. -/
theorem exec_keeps_tables {i : Instr} {s t : State} (h : exec i s = .next t) (hwf : s.mem.wf) (hinv : s.inverseBuilt) :
    t.mem.wf ∧ t.inverseBuilt := by
  rcases exec_tables_cases h with hsame | ⟨-, ht, hkeep⟩ | ⟨-, -, rfl⟩
  · exact ⟨hsame.1 ▸ hwf, inverseBuilt_of_sameTablesAndPhase hsame hinv⟩
  · exact ⟨hkeep hwf, inverseBuilt_of_cfg ht⟩
  · exact ⟨State.computeInverses_wf hwf, inverseBuilt_of_build s⟩

theorem reset_statusLegal : State.reset.statusLegal := ⟨by decide, by decide⟩

/-- Settles O11: nothing is listed, `STATUS` is clear, and the phase is CFG. -/
theorem resetMeetsInvariant : Obligations.ResetMeetsInvariant :=
  ⟨State.reset_mem_wf, reset_statusLegal, inverseBuilt_of_cfg rfl⟩

/-- The session and the host's side, in which a reset event differs from the start, enter no part of the invariant. -/
theorem hostReset_inv (s : State) : s.hostReset.Inv :=
  ⟨State.reset_mem_wf, reset_statusLegal, inverseBuilt_of_cfg rfl⟩

/-- Settles O12: an idle step changes nothing and a reset ends in the reset condition; a presented word keeps a legal
`STATUS` whatever it answers, and the tables by what its command does to them. -/
theorem stepKeepsInvariant : Obligations.StepKeepsInvariant := by
  intro s t hs h
  obtain ⟨hwf, hstatus, hinv⟩ := hs
  rcases step_cases h with ⟨-, rfl⟩ | ⟨rest, -, rfl⟩ | ⟨w, rest, hi, hcommand⟩
  · exact ⟨hwf, hstatus, hinv⟩
  · exact hostReset_inv _
  · obtain ⟨r, failed, ha, hne⟩ := answers_raisable_of_step hi h
    have hstatus' : t.statusLegal := statusLegal_of_answers ha hne hstatus
    rcases hcommand with ⟨i, -, hx⟩ | ⟨why, -, rfl⟩
    · obtain ⟨hwf', hinv'⟩ := exec_keeps_tables hx hwf hinv
      exact ⟨hwf', hstatus', hinv'⟩
    · exact ⟨hwf, hstatus', hinv⟩

end Sys2Proof.Machine
end

section
/-! `L2I` by the codes of the letters (40_codec R102), the layout of the response words (30_encoding R84), and the right
rotor as a counter of the steps (42_stepping R142). -/

namespace Sys2Proof.Machine

/-! ## L2I (40_codec R102) -/

theorem toNat_of_l2i {c : Character} {x : Index} (h : l2i c = some x) : c.toNat = 0x41 + x.val := by
  obtain ⟨y, hy⟩ := (isLetter_iff_exists_index c).1 (isLetter_of_l2i h)
  obtain rfl : y = x := Option.some.inj ((l2i_of_toNat hy).symm.trans h)
  exact hy

/-- Settles O44: a character with an index has the index's code, and the non-letters are those without. -/
theorem letterToIndexValues : Obligations.LetterToIndexValues := fun _ =>
  ⟨fun _ => ⟨toNat_of_l2i, l2i_of_toNat⟩, isLetter_eq_false_of_l2i, l2i_of_nonletter⟩

/-! ## Response words (30_encoding R84) -/

/-- A response of kind `kind` with its payload in the low bits, as a number. -/
theorem toNat_kind_append {n : Nat} (kind : BitVec 4) (zeros : Nat) (x : BitVec n) :
    (kind ++ 0#zeros ++ x).toNat = kind.toNat * 2 ^ (zeros + n) + x.toNat := by
  rw [BitVec.toNat_append, ← Nat.shiftLeft_add_eq_or_of_lt x.isLt, BitVec.toNat_append]
  simp [Nat.shiftLeft_eq, pow_add, mul_assoc]

/-- Settles O24: the kind in the top four bits, zeros, and the payload; the codes by definition. -/
theorem responseWordLayout : Obligations.ResponseWordLayout := by
  refine ⟨rfl, fun c => ?_, toNat_toWord_val, fun e => ?_, rfl, rfl, rfl⟩
  · exact toNat_kind_append 0x1#4 4 c
  · exact toNat_kind_append 0xF#4 9 e.code

/-! ## The right rotor -/

/-- Settles O37: by induction on the steps, each of which adds 1 whatever the notches are. -/
theorem rightRotorCountsSteps : Obligations.RightRotorCountsSteps := by
  intro n s
  induction n with
  | zero => simp [Nat.mod_eq_of_lt s.pos.right.isLt]
  | succ n ih =>
    rw [Function.iterate_succ_apply', stepRotors_pos]
    simp only [Fin.val_add, ih]
    simp [add_assoc]

end Sys2Proof.Machine
end

section
/-! The free values: a written entry reads alike in every session, so with `W` and `REF` written and `INV` built no
command depends on the session (10_state R41; 45_properties, determinism), and a second machine of any session turns
the output text back into the input (45_properties, reciprocity of texts). Last, the responses to a text are counted
(43_pipeline, the output text). -/

namespace Sys2Proof.Machine

/-! ## Written entries -/

/-- An entry that is written reads as what the memory lists for it. -/
theorem readTable_of_isWritten {s u : State} {tab : TableId} {a : Index} (hmem : u.mem = s.mem)
    (h : s.mem.isWritten tab a = true) : u.readTable tab a = s.readTable tab a := by
  obtain ⟨v, hv⟩ := Option.isSome_iff_exists.1 h
  simp [State.readTable, Memory.read, hmem, hv]

/-- The plugboard's unlisted entries read as themselves in every session. -/
theorem readTable_plugboard_congr {s u : State} (hmem : u.mem = s.mem) :
    u.readTable .plugboard = s.readTable .plugboard := by
  funext a
  simp only [State.readTable, Memory.read, hmem]
  rfl

/-- The wirings and the reflector hold no free value. -/
def State.tablesWritten (s : State) : Prop :=
  (∀ k a, s.mem.isWritten (.wiring k) a = true) ∧ ∀ a, s.mem.isWritten .reflector a = true

/-- In RUN, with `W` and `REF` written, every table reads alike in every session. -/
theorem readTable_eq_of_tablesWritten {s u : State} (hp : s.phase = .run) (hinv : s.inverseBuilt)
    (hw : s.tablesWritten) (hmem : u.mem = s.mem) : u.readTable = s.readTable := by
  funext tab a
  cases tab with
  | wiring k => exact readTable_of_isWritten hmem (hw.1 k a)
  | inverse k => exact readTable_of_isWritten hmem ((hinv hp k).1 a)
  | reflector => exact readTable_of_isWritten hmem (hw.2 a)
  | plugboard => rw [readTable_plugboard_congr hmem]

/-! ## Two machines with the same settings -/

/-- The phase, the registers of the letter path and the memory alike; the session may differ. -/
structure SameSettings (s u : State) : Prop where
  phase : u.phase = s.phase
  pos : u.pos = s.pos
  ring : u.ring = s.ring
  notch : u.notch = s.notch
  mem : u.mem = s.mem

/-- The responses are no setting. -/
theorem SameSettings.respond {s u : State} (h : SameSettings s u) (r q : Response) :
    SameSettings (s.respond r) (u.respond q) :=
  ⟨h.phase, h.pos, h.ring, h.notch, h.mem⟩

theorem SameSettings.stepRotors {s u : State} (h : SameSettings s u) :
    SameSettings (Machine.stepRotors s) (Machine.stepRotors u) where
  phase := by simp [h.phase]
  pos := by simp [stepRotors_pos, State.inNotch, h.pos, h.notch]
  ring := by simp [h.ring]
  notch := by simp [h.notch]
  mem := by simp [h.mem]

/-- After a step the two machines take every letter the same way, whatever their sessions. -/
theorem transform_stepRotors_eq {s u : State} (hp : s.phase = .run) (hinv : s.inverseBuilt) (hw : s.tablesWritten)
    (h : SameSettings s u) (x : Index) : transform (stepRotors u) x = transform (stepRotors s) x := by
  refine transform_congr h.stepRotors.pos h.stepRotors.ring ?_ x
  calc (stepRotors u).readTable = s.readTable :=
        readTable_eq_of_tablesWritten hp hinv hw (h.stepRotors.mem.trans (stepRotors_mem s))
    _ = (stepRotors s).readTable := (State.readTable_congr (stepRotors_mem s) (stepRotors_session s)).symm

/-! ## Another session: determinism -/

/-- The state with the free values of another session. -/
def State.withSession (s : State) (n : Nat) : State := { s with session := n }

theorem stepRotors_withSession (s : State) (n : Nat) :
    stepRotors (s.withSession n) = (stepRotors s).withSession n := by
  rw [stepRotors_frame, stepRotors_frame s, stepRotors_pos, stepRotors_pos]
  rfl

theorem encryptLetter_withSession {s : State} (n : Nat) (hp : s.phase = .run) (hinv : s.inverseBuilt)
    (hw : s.tablesWritten) (x : Index) :
    encryptLetter x (s.withSession n) =
      .next (((stepRotors s).respond (.sym (i2l (transform (stepRotors s) x).val))).withSession n) := by
  have hsame : SameSettings s (s.withSession n) := ⟨rfl, rfl, rfl, rfl, rfl⟩
  rw [encryptLetter, transform_stepRotors_eq hp hinv hw hsame, stepRotors_withSession]
  rfl

/-- No free value enters the inverse of a permutation. -/
theorem builtInverse_session_eq (m n : Nat) (k : Rotor) {w : Index → Index} (h : isPermutation w) :
    builtInverse m k w = builtInverse n k w := by
  funext v
  obtain ⟨i, rfl⟩ := h v
  rw [builtInverse_of_isPermutation m k h, builtInverse_of_isPermutation n k h]

theorem computeInverses_withSession {s : State} (n : Nat) (hw : ∀ k, s.WFW k) :
    (s.withSession n).computeInverses = s.computeInverses.withSession n := by
  have hinverse (k : Rotor) : builtInverse n k ((s.withSession n).readTable (.wiring k)) =
      builtInverse s.session k (s.readTable (.wiring k)) := by
    obtain ⟨hwritten, hperm⟩ := hw k
    have hread : (s.withSession n).readTable (.wiring k) = s.readTable (.wiring k) :=
      funext fun a => readTable_of_isWritten rfl (hwritten a)
    rw [hread, builtInverse_session_eq n s.session k hperm]
  simp only [State.computeInverses, State.withSession] at hinverse ⊢
  rw [hinverse, hinverse, hinverse]

/-- A command gives a next state, and from another session the same one in that session. -/
def SessionBlind (n : Nat) (i : Instr) (s : State) : Prop :=
  ∃ t, exec i s = .next t ∧ exec i (s.withSession n) = .next (t.withSession n)

/-- Of the effects a command can have, only `BUILD`'s reads `W`, and only a letter's the tables of its path. -/
theorem sessionBlind_of_written (n : Nat) (i : Instr) {s : State} (hinv : s.inverseBuilt) (hw : ∀ k, s.WFW k)
    (hwritten : s.tablesWritten) : SessionBlind n i s := by
  cases hfirst : firstFailedCheck i s.phase with
  | some e =>
    exact ⟨_, exec_eq_raise_of_firstFailedCheck hfirst,
      exec_eq_raise_of_firstFailedCheck (s := s.withSession n) hfirst⟩
  | none =>
    cases i with
    | wrw r a v =>
      obtain ⟨hp, k, x, d, hk, hx, hd, -⟩ := effect_of_cases (execWrw_cases r a v s) hfirst
      rw [(rotorOfSelect_eq_some_iff r k).1 hk, eq_indexCode_of_indexOfField hx, eq_indexCode_of_indexOfField hd]
      exact ⟨_, exec_wrw_of_cfg k x d hp, exec_wrw_of_cfg k x d hp⟩
    | wrf a v =>
      obtain ⟨hp, x, d, hx, hd, -⟩ := effect_of_cases (execWrf_cases a v s) hfirst
      rw [eq_indexCode_of_indexOfField hx, eq_indexCode_of_indexOfField hd]
      exact ⟨_, exec_wrf_of_cfg x d hp, exec_wrf_of_cfg x d hp⟩
    | plug a b =>
      obtain ⟨hp, x, y, hx, hy, -⟩ := effect_of_cases (execPlug_cases a b s) hfirst
      rw [eq_indexCode_of_indexOfField hx, eq_indexCode_of_indexOfField hy]
      exact ⟨_, exec_plug_of_cfg x y hp, exec_plug_of_cfg x y hp⟩
    | notch r m =>
      obtain ⟨hp, k, x, hk, hx, -⟩ := effect_of_cases (execNotch_cases r m s) hfirst
      rw [(rotorOfSelect_eq_some_iff r k).1 hk, eq_indexCode_of_indexOfField hx]
      exact ⟨_, exec_notch_of_cfg k x hp, exec_notch_of_cfg k x hp⟩
    | ring r g =>
      obtain ⟨hp, k, hk, -⟩ := effect_of_cases (execRing_cases r g s) hfirst
      rw [(rotorOfSelect_eq_some_iff r k).1 hk]
      exact ⟨_, exec_ring_of_cfg k g hp, exec_ring_of_cfg k g hp⟩
    | pos r p =>
      obtain ⟨hp, k, hk, -⟩ := effect_of_cases (execPos_cases r p s) hfirst
      rw [(rotorOfSelect_eq_some_iff r k).1 hk]
      exact ⟨_, exec_pos_of_cfg k p hp, exec_pos_of_cfg k p hp⟩
    | build =>
      obtain ⟨hp, he⟩ := effect_of_cases (execBuild_cases s) hfirst
      refine ⟨_, he, (exec_build_of_cfg (s := s.withSession n) hp).trans ?_⟩
      rw [computeInverses_withSession n hw]
      rfl
    | enc c =>
      obtain ⟨hp, ⟨hc, he⟩ | ⟨x, hx, he⟩⟩ := effect_of_cases (execEnc_cases c s) hfirst
      · exact ⟨_, he, exec_enc_of_nonletter hp (isLetter_eq_false_of_l2i hc)⟩
      · exact ⟨_, he, (exec_enc_of_l2i (s := s.withSession n) hp hx).trans
          (encryptLetter_withSession n hp hinv hwritten x)⟩
    | enct c =>
      obtain ⟨hp, ⟨hc, he⟩ | ⟨x, hx, he⟩⟩ := effect_of_cases (execEnct_cases c s) hfirst
      · exact ⟨_, he, exec_enct_of_nonletter hp (isLetter_eq_false_of_l2i hc)⟩
      · exact ⟨_, he, (exec_eq_encryptLetter (s := s.withSession n) hp (toNat_of_l2i hx) (.enct c) (by simp)).trans
          (encryptLetter_withSession n hp hinv hwritten x)⟩
    | rdpos r =>
      obtain ⟨k, hk, -⟩ := effect_of_cases (execRdpos_cases r s) hfirst
      rw [(rotorOfSelect_eq_some_iff r k).1 hk]
      exact ⟨_, withRotor_rotorSelect k s _, withRotor_rotorSelect k (s.withSession n) _⟩
    | rdst => exact ⟨_, execRdst_eq s, execRdst_eq (s.withSession n)⟩

/-- Settles O55: a command has one next state, which is that of the session-blind run. -/
theorem writtenTablesDetermineTheRun : Obligations.WrittenTablesDetermineTheRun := by
  intro s n i t hinv hw hrefl h
  obtain ⟨t', ht, hblind⟩ := sessionBlind_of_written n i hinv hw ⟨fun k => (hw k).1, hrefl⟩
  obtain rfl := Host.Outcome.next.inj (ht.symm.trans h)
  exact hblind

/-! ## A second machine: reciprocity of texts -/

/-- A machine in RUN with a well-formed configuration, and a second one with the same settings. -/
structure Reciprocal (s u : State) : Prop where
  run : s.phase = .run
  built : s.inverseBuilt
  wf : s.WF
  same : SameSettings s u

theorem tablesWritten_of_wf {s : State} (h : s.WF) : s.tablesWritten := by
  obtain ⟨hwiring, ⟨hrefl, -⟩, -⟩ := h
  exact ⟨fun k => (hwiring k).1, hrefl⟩

theorem wf_of_sameTablesAndPhase {s t : State} (h : s.sameTablesAndPhase t) (hs : s.WF) : t.WF := by
  obtain ⟨hmem, hsession, -⟩ := h
  simp only [State.WF, State.WFW, State.WFREF, State.WFPB, State.readTable_congr hmem hsession, hmem]
  exact hs

theorem Reciprocal.respond {s u : State} (h : Reciprocal s u) (r q : Response) :
    Reciprocal (s.respond r) (u.respond q) :=
  ⟨h.run, h.built, h.wf, h.same.respond r q⟩

theorem Reciprocal.stepRotors {s u : State} (h : Reciprocal s u) :
    Reciprocal (Machine.stepRotors s) (Machine.stepRotors u) where
  run := (stepRotors_phase s).trans h.run
  built := inverseBuilt_of_sameTablesAndPhase (sameTablesAndPhase_stepRotors s) h.built
  wf := wf_of_sameTablesAndPhase (sameTablesAndPhase_stepRotors s) h.wf
  same := h.same.stepRotors

/-- The letter of the index `x` is answered by the one of `TRANSFORM(x)` after the step, whichever of the two commands
carries it. -/
theorem exec_i2l {s : State} (hp : s.phase = .run) (x : Index) :
    ∀ i ∈ [Instr.enc (i2l x.val), .enct (i2l x.val)],
      exec i s = .next ((stepRotors s).respond (.sym (i2l (transform (stepRotors s) x).val))) :=
  exec_eq_encryptLetter hp (by rw [i2l_toNat, mod26_index])

/-- The second machine answers the first one's answer with the letter the first was given: both take letters by one
`TRANSFORM`, an involution. -/
theorem exec_letter_reciprocal {s u : State} (h : Reciprocal s u) {c : Character} (hc : isLetter c = true) :
    ∃ d, isLetter d = true ∧
      (∀ i ∈ [Instr.enc c, .enct c], exec i s = .next ((stepRotors s).respond (.sym d))) ∧
      ∀ i ∈ [Instr.enc d, .enct d], exec i u = .next ((stepRotors u).respond (.sym c)) := by
  obtain ⟨x, rfl⟩ : ∃ x : Index, i2l x.val = c := ⟨_, i2l_mod26_of_isLetter hc⟩
  have hinvol : Function.Involutive (transform (stepRotors s)) :=
    transform_involutive h.stepRotors.run h.stepRotors.built h.stepRotors.wf
  have hback : transform (stepRotors u) (transform (stepRotors s) x) = x := by
    rw [transform_stepRotors_eq h.run h.built (tablesWritten_of_wf h.wf) h.same, hinvol]
  have hu := exec_i2l (h.same.phase.trans h.run) (transform (stepRotors s) x)
  rw [hback] at hu
  exact ⟨_, isLetter_i2l _, exec_i2l h.run x, hu⟩

/-- One character by `ENC`, a non-letter answered by itself on both machines. -/
theorem exec_enc_reciprocal {s u : State} (h : Reciprocal s u) (c : Character) :
    ∃ (d : Character) (t v : State), exec (.enc c) s = .next t ∧ t.responses = s.responses ++ [.sym d] ∧
      exec (.enc d) u = .next v ∧ v.responses = u.responses ++ [.sym c] ∧ Reciprocal t v := by
  cases hc : isLetter c with
  | true =>
    obtain ⟨d, -, hs, hu⟩ := exec_letter_reciprocal h hc
    exact ⟨d, _, _, hs _ (by simp), by simp, hu _ (by simp), by simp, h.stepRotors.respond _ _⟩
  | false =>
    have hu := exec_enc_of_nonletter (h.same.phase.trans h.run) hc
    exact ⟨c, _, _, exec_enc_of_nonletter h.run hc, rfl, hu, rfl, h.respond _ _⟩

theorem execAll_cons_of_exec {i : Instr} {is : List Instr} {s t : State} (h : exec i s = .next t) :
    execAll (i :: is) s = execAll is t := by
  rw [execAll, h]

theorem execAll_enc_reciprocal (cs : List Character) {s u : State} (h : Reciprocal s u) :
    ∃ (t v : State) (ds : List Character), execAll (cs.map .enc) s = .next t ∧
      t.responses = s.responses ++ ds.map .sym ∧ execAll (ds.map .enc) u = .next v ∧
      v.responses = u.responses ++ cs.map .sym ∧ t.pos = v.pos := by
  induction cs generalizing s u with
  | nil => exact ⟨s, u, [], rfl, by simp, rfl, by simp, h.same.pos.symm⟩
  | cons c cs ih =>
    obtain ⟨d, s', u', hs, hsr, hu, hur, h'⟩ := exec_enc_reciprocal h c
    obtain ⟨t, v, ds, ht, htr, hv, hvr, hpos⟩ := ih h'
    exact ⟨t, v, d :: ds, (execAll_cons_of_exec hs).trans ht, by simp [htr, hsr], (execAll_cons_of_exec hu).trans hv,
      by simp [hvr, hur], hpos⟩

/-- By `ENCT` a non-letter adds nothing to the output, and the second machine is not given it. -/
theorem execAll_enct_reciprocal (cs : List Character) {s u : State} (h : Reciprocal s u) :
    ∃ (t v : State) (rs qs : List Response), execAll (pseudoText cs) s = .next t ∧ t.responses = s.responses ++ rs ∧
      execAll (pseudoText (outputText rs)) u = .next v ∧ v.responses = u.responses ++ qs ∧
      outputText qs = cs.filter isLetter ∧ t.pos = v.pos := by
  induction cs generalizing s u with
  | nil => exact ⟨s, u, [], [], rfl, by simp, rfl, by simp, rfl, h.same.pos.symm⟩
  | cons c cs ih =>
    cases hc : isLetter c with
    | false =>
      have h' : Reciprocal (s.respond .ack) u := ⟨h.run, h.built, h.wf, h.same.phase, h.same.pos, h.same.ring,
        h.same.notch, h.same.mem⟩
      obtain ⟨t, v, rs, qs, ht, htr, hv, hvr, hout, hpos⟩ := ih h'
      exact ⟨t, v, .ack :: rs, qs, (execAll_cons_of_exec (exec_enct_of_nonletter h.run hc)).trans ht, by simp [htr],
        hv, hvr, by simp [hc, hout], hpos⟩
    | true =>
      obtain ⟨d, -, hs, hu⟩ := exec_letter_reciprocal h hc
      obtain ⟨t, v, rs, qs, ht, htr, hv, hvr, hout, hpos⟩ := ih (h.stepRotors.respond (.sym d) (.sym c))
      refine ⟨t, v, .sym d :: rs, .sym c :: qs, (execAll_cons_of_exec (hs _ (by simp))).trans ht, by simp [htr],
        (execAll_cons_of_exec (hu _ (by simp))).trans hv, by simp [hvr], ?_, hpos⟩
      rw [List.filter_cons_of_pos hc, ← hout]
      rfl

/-- Settles O49: character by character, the two machines stay reciprocal. -/
theorem textReciprocity : Obligations.TextReciprocity := by
  intro s u hp hinv hwf hpu hpos hring hnotch hmem cs
  have h : Reciprocal s u := ⟨hp, hinv, hwf, hpu.trans hp.symm, hpos, hring, hnotch, hmem⟩
  exact ⟨execAll_enc_reciprocal cs h, execAll_enct_reciprocal cs h⟩

/-! ## The responses to a text (43_pipeline, the output text) -/

/-- A list of commands is answered with one response for each. -/
theorem length_responses_of_execAll (is : List Instr) {s t : State} (h : execAll is s = .next t) :
    t.responses.length = s.responses.length + is.length := by
  induction is generalizing s with
  | nil =>
    obtain rfl := Host.Outcome.next.inj h
    rfl
  | cons i is ih =>
    obtain ⟨u, hu, hrest⟩ := execAll_cons_next h
    obtain ⟨r, ha⟩ := answers_of_exec hu
    rw [ih hrest, ha.responses_eq, List.length_append, List.length_singleton, List.length_cons]
    omega

/-- Settles O51: the letters of the output as they are counted over the text, and the responses over the commands. -/
theorem outputTextHasOneLetterPerLetter : Obligations.OutputTextHasOneLetterPerLetter := by
  intro s cs hp
  obtain ⟨rs, hlen, hletters, hrun⟩ := execAll_pseudoText cs hp
  have hcount := length_responses_of_execAll _ (hrun s.responses)
  refine ⟨_, rs, hrun s.responses, rfl, hlen.trans List.countP_eq_length_filter, hletters, ?_⟩
  simpa [pseudoText] using hcount

end Sys2Proof.Machine
end

section
/-! Loading a configuration: each of its commands has one effect, which either gives an entry or register the value of
the configuration or leaves it alone, so that the order of the commands does not matter (44_configuration R194; 70_reset
R262). -/

namespace Sys2Proof.Machine

/-! ## What one command of a configuration does -/

/-- The entry a configuration gives a table: of `W` and `REF` only. -/
def Configuration.entry (c : Configuration) : TableId → Index → Option Index
  | .wiring k, a => (c.wiring.get k)[a.val]?
  | .reflector, a => c.reflector[a.val]?
  | .inverse _, _ => none
  | .plugboard, _ => none

/-- What a command of the configuration does before it answers. -/
inductive Configuration.Loads (c : Configuration) (s : State) : State → Prop
  | entry {tab : TableId} {a d : Index} (h : c.entry tab a = some d) : c.Loads s (s.writeTable tab a d)
  | notch {k : Rotor} {n : Index} (h : n ∈ c.notch.get k) : c.Loads s (s.addNotch k n)
  | ring (k : Rotor) : c.Loads s (s.setRing k (c.ring.get k))
  | start (k : Rotor) : c.Loads s (s.setPos k (c.start.get k))
  | plug {p : Index × Index} (h : p ∈ c.plugs) :
      c.Loads s ((s.writeTable .plugboard p.1 p.2).writeTable .plugboard p.2 p.1)

/-- A property of the state that every command of the configuration keeps. -/
def Configuration.Keeps (c : Configuration) (Q : State → Prop) : Prop := ∀ s t, c.Loads s t → Q s → Q (t.respond .ack)

/-- A property a command in the CFG phase leaves, whatever was before. -/
def Establishes (i : Instr) (Q : State → Prop) : Prop := ∀ s, s.phase = .cfg → ∃ t, exec i s = .next t ∧ Q t

/-- A property that some command of the configuration establishes. -/
def Configuration.Sets (c : Configuration) (Q : State → Prop) : Prop := ∃ i ∈ c.commands, Establishes i Q

section Loading

variable {c : Configuration} {s t : State}

theorem Configuration.Loads.phase_eq (h : c.Loads s t) : t.phase = s.phase := by
  cases h <;> rfl

@[simp] theorem indexReduced_indexCode (x : Index) : indexReduced (indexCode x) = x := by
  rw [indexReduced, toNat_indexCode, mod26_index]

/-- A command of the configuration in the CFG phase is answered `ACK` after its effect. -/
theorem exec_loads {i : Instr} (hi : i ∈ c.commands) (hp : s.phase = .cfg) :
    ∃ t, exec i s = .next (t.respond .ack) ∧ c.Loads s t := by
  simp only [mem_commands, mem_pseudoRotor, mem_pseudoReflector, mem_pseudoNotches, mem_nonDefaultCommands,
    mem_pseudoPlugs] at hi
  rcases hi with ⟨k, a, d, hd, rfl⟩ | ⟨a, d, hd, rfl⟩ | ⟨k, n, hn, rfl⟩ | ⟨k, -, rfl⟩ | ⟨k, -, rfl⟩ | ⟨p, hmem, rfl⟩
  · exact ⟨_, exec_wrw_of_cfg k a d hp, .entry hd⟩
  · exact ⟨_, exec_wrf_of_cfg a d hp, .entry hd⟩
  · exact ⟨_, exec_notch_of_cfg k n hp, .notch hn⟩
  · exact ⟨_, exec_ring_of_cfg k _ hp, by simpa using .ring k⟩
  · exact ⟨_, exec_pos_of_cfg k _ hp, by simpa using .start k⟩
  · exact ⟨_, exec_plug_of_cfg p.1 p.2 hp, .plug hmem⟩

/-- Commands of the configuration run to a next state in CFG, with every property that they keep and that either held
before or is left by one of them. -/
theorem execAll_loads (is : List Instr) (his : ∀ i ∈ is, i ∈ c.commands) (hp : s.phase = .cfg) :
    ∃ t, execAll is s = .next t ∧ t.phase = .cfg ∧
      ∀ Q, c.Keeps Q → (Q s ∨ ∃ i ∈ is, Establishes i Q) → Q t := by
  induction is generalizing s with
  | nil => exact ⟨s, rfl, hp, fun Q _ hQ => by simpa using hQ⟩
  | cons i is ih =>
    obtain ⟨hi, his⟩ := List.forall_mem_cons.1 his
    obtain ⟨u, hu, hload⟩ := exec_loads hi hp
    obtain ⟨t, ht, htp, hQt⟩ := ih his (s := u.respond .ack) (hload.phase_eq.trans hp)
    refine ⟨t, (execAll_cons_of_exec hu).trans ht, htp, fun Q hkeep hQ => hQt Q hkeep ?_⟩
    rw [List.exists_mem_cons_iff] at hQ
    rcases hQ with hs | hset | hlater
    · exact .inl (hkeep s u hload hs)
    · obtain ⟨u', hu', hQu⟩ := hset s hp
      obtain rfl := Host.Outcome.next.inj (hu'.symm.trans hu)
      exact .inl hQu
    · exact .inr hlater

end Loading

/-! ## What every command of the configuration keeps -/

section Keeps

variable {c : Configuration} {k : Rotor}

theorem keeps_noError : c.Keeps fun s => s.fault = false ∧ s.cause = 0#3 := by
  intro s t h hs
  cases h <;> exact hs

theorem ne_plugboard_of_entry {tab : TableId} {a d : Index} (hd : c.entry tab a = some d) : tab ≠ .plugboard := by
  rintro rfl
  cases hd

/-- An entry of `W` or `REF` with the configuration's value: the configuration has no other for it. -/
theorem keeps_entry {tab : TableId} {a d : Index} (hd : c.entry tab a = some d) :
    c.Keeps fun s => s.readTable tab a = d := by
  intro s t h hs
  rw [State.readTable_respond]
  cases h with
  | @entry tab' a' d' hd' =>
    by_cases hsame : tab = tab' ∧ a = a'
    · obtain ⟨rfl, rfl⟩ := hsame
      rw [State.readTable_writeTable_same]
      exact Option.some.inj (hd'.symm.trans hd)
    · rwa [State.readTable_writeTable_of_ne _ _ hsame]
  | notch _ => exact hs
  | ring _ => exact hs
  | start _ => exact hs
  | plug _ =>
    have hne := ne_plugboard_of_entry hd
    rwa [State.readTable_writeTable_of_ne _ _ (by simp [hne]), State.readTable_writeTable_of_ne _ _ (by simp [hne])]

theorem inNotch_addNotch_iff (s : State) (j k : Rotor) (n x : Index) :
    (s.addNotch j n).inNotch k x = true ↔ s.inNotch k x = true ∨ (k = j ∧ x = n) := by
  by_cases hk : k = j
  · subst hk
    simp [State.inNotch_addNotch_same]
  · rw [State.inNotch_congr (k := k) (PerRotor.get_set_of_ne _ _ hk)]
    simp [hk]

theorem keeps_inNotch (x : Index) : c.Keeps fun s => s.inNotch k x = true := by
  intro s t h hs
  cases h with
  | notch _ => exact (inNotch_addNotch_iff s _ k _ x).2 (.inl hs)
  | _ => exact hs

/-- Only the notches of the configuration are added. -/
theorem keeps_notchOnly (x : Index) : c.Keeps fun s => s.inNotch k x = true → x ∈ c.notch.get k := by
  intro s t h hs hx
  cases h with
  | notch hn =>
    rcases (inNotch_addNotch_iff s _ k _ x).1 hx with hx | ⟨rfl, rfl⟩
    · exact hs hx
    · exact hn
  | _ => exact hs hx

theorem get_set_eq_ite (p : PerRotor Index) (j k : Rotor) (x : Index) :
    (p.set j x).get k = if k = j then x else p.get k := by
  split
  · next hk => rw [hk, PerRotor.get_set_same]
  · next hk => exact PerRotor.get_set_of_ne p x hk

theorem keeps_ring : c.Keeps fun s => s.ring.get k = c.ring.get k := by
  intro s t h hs
  cases h with
  | ring j => by_cases hk : k = j <;> simp [get_set_eq_ite, hk, hs]
  | _ => exact hs

theorem keeps_start : c.Keeps fun s => s.pos.get k = c.start.get k := by
  intro s t h hs
  cases h with
  | start j => by_cases hk : k = j <;> simp [get_set_eq_ite, hk, hs]
  | _ => exact hs

/-- Every pair that names `x` has `y` for the other letter. -/
def Configuration.Partner (c : Configuration) (x y : Index) : Prop :=
  ∀ p ∈ c.plugs, (x = p.1 → y = p.2) ∧ (x = p.2 → y = p.1)

theorem keeps_partner {x y : Index} (hxy : c.Partner x y) : c.Keeps fun s => plugMap s x = y := by
  intro s t h hs
  cases h with
  | @entry tab a d hd =>
    have hne := ne_plugboard_of_entry hd
    exact (congrFun (keepsPlugboard_writeTable s a d hne).2 x).trans hs
  | @plug p hp =>
    obtain ⟨h1, h2⟩ := hxy p hp
    refine (plugMap_plug s p.1 p.2 x).trans ?_
    split
    · next h => exact (h2 h).symm
    · split
      · next h => exact (h1 h).symm
      · exact hs
  | _ => exact hs

end Keeps

/-! ## What a command of the configuration establishes -/

section Sets

variable {c : Configuration} {k : Rotor}

theorem sets_entry {tab : TableId} {a d : Index} (h : c.entry tab a = some d) :
    c.Sets fun s => s.readTable tab a = d := by
  cases tab with
  | wiring k =>
    have hmem := (mem_pseudoRotor k _ _).2 ⟨a, d, h, rfl⟩
    exact ⟨_, (mem_commands c _).2 (.inl ⟨k, hmem⟩), fun s hp => ⟨_, exec_wrw_of_cfg k a d hp, by simp⟩⟩
  | reflector =>
    have hmem := (mem_pseudoReflector _ _).2 ⟨a, d, h, rfl⟩
    exact ⟨_, (mem_commands c _).2 (.inr (.inl hmem)), fun s hp => ⟨_, exec_wrf_of_cfg a d hp, by simp⟩⟩
  | inverse _ => cases h
  | plugboard => cases h

theorem sets_notch {n : Index} (h : n ∈ c.notch.get k) : c.Sets fun s => s.inNotch k n = true := by
  have hmem := (mem_pseudoNotches k _ _).2 ⟨n, h, rfl⟩
  exact ⟨_, (mem_commands c _).2 (.inr (.inr (.inl ⟨k, hmem⟩))), fun s hp =>
    ⟨_, exec_notch_of_cfg k n hp, (s.inNotch_addNotch_same k n n).2 (.inr rfl)⟩⟩

theorem sets_ring (h : c.ring.get k ≠ 0) : c.Sets fun s => s.ring.get k = c.ring.get k := by
  have hmem := (mem_nonDefaultCommands (fun k g => .ring (rotorSelect k) (indexCode g)) c.ring _).2 ⟨k, h, rfl⟩
  exact ⟨_, (mem_commands c _).2 (.inr (.inr (.inr (.inl hmem)))), fun s hp => ⟨_, exec_ring_of_cfg k _ hp, by simp⟩⟩

theorem sets_start (h : c.start.get k ≠ 0) : c.Sets fun s => s.pos.get k = c.start.get k := by
  have hmem := (mem_nonDefaultCommands (fun k p => .pos (rotorSelect k) (indexCode p)) c.start _).2 ⟨k, h, rfl⟩
  exact ⟨_, (mem_commands c _).2 (.inr (.inr (.inr (.inr (.inl hmem))))), fun s hp =>
    ⟨_, exec_pos_of_cfg k _ hp, by simp⟩⟩

theorem sets_pair {p : Index × Index} (h : p ∈ c.plugs) :
    c.Sets fun s => plugMap s p.1 = p.2 ∧ plugMap s p.2 = p.1 := by
  have hmem := (mem_pseudoPlugs _ _).2 ⟨p, h, rfl⟩
  exact ⟨_, (mem_commands c _).2 (.inr (.inr (.inr (.inr (.inr hmem))))), fun s hp =>
    ⟨_, exec_plug_of_cfg p.1 p.2 hp, readTable_plug_first s p.1 p.2, State.readTable_writeTable_same _ _ _ _⟩⟩

end Sets

/-! ## The state a configuration leaves -/

theorem Configuration.Keeps.and {c : Configuration} {P Q : State → Prop} (hP : c.Keeps P) (hQ : c.Keeps Q) :
    c.Keeps fun s => P s ∧ Q s :=
  fun s t h hs => ⟨hP s t h hs.1, hQ s t h hs.2⟩

/-- No letter stands in two pairs, so the letters of a pair have no other partner. -/
theorem partner_of_mem {c : Configuration}
    (hdisj : c.plugs.Pairwise fun p q => p.1 ≠ q.1 ∧ p.1 ≠ q.2 ∧ p.2 ≠ q.1 ∧ p.2 ≠ q.2) {p : Index × Index}
    (hp : p ∈ c.plugs) : c.Partner p.1 p.2 ∧ c.Partner p.2 p.1 := by
  have hsymm : Std.Symm fun p q : Index × Index => p.1 ≠ q.1 ∧ p.1 ≠ q.2 ∧ p.2 ≠ q.1 ∧ p.2 ≠ q.2 :=
    ⟨fun p q ⟨h11, h12, h21, h22⟩ => ⟨h11.symm, h21.symm, h12.symm, h22.symm⟩⟩
  have hother (q) (hq : q ∈ c.plugs) : q = p ∨ (p.1 ≠ q.1 ∧ p.1 ≠ q.2 ∧ p.2 ≠ q.1 ∧ p.2 ≠ q.2) := by
    by_cases hqp : q = p
    · exact .inl hqp
    · exact .inr (hdisj.forall hp hq (Ne.symm hqp))
  constructor
  · intro q hq
    rcases hother q hq with rfl | ⟨h11, h12, -, -⟩
    · exact ⟨fun _ => rfl, fun h => h.symm⟩
    · exact ⟨fun h => absurd h h11, fun h => absurd h h12⟩
  · intro q hq
    rcases hother q hq with rfl | ⟨-, -, h21, h22⟩
    · exact ⟨fun h => h.symm, fun _ => rfl⟩
    · exact ⟨fun h => absurd h h21, fun h => absurd h h22⟩

/-- The whole configuration run in CFG: a property its commands keep holds at the end when it held before or one of them
sets it. -/
theorem execAll_commands (c : Configuration) {s : State} (hp : s.phase = .cfg) :
    ∃ t, execAll c.commands s = .next t ∧ t.phase = .cfg ∧ ∀ Q, c.Keeps Q → (Q s ∨ c.Sets Q) → Q t :=
  execAll_loads c.commands (fun _ h => h) hp

/-- Settles O57: each entry and register has the configuration's value from a command or from the reset, and every
command keeps it. -/
theorem loadedConfiguration : Obligations.LoadedConfiguration := by
  intro c s hs hw hrefl
  obtain ⟨n, l, rs, rfl⟩ := reset_or_hostReset_eq hs
  obtain ⟨t, ht, hphase, hloaded⟩ :=
    execAll_commands c (s := { State.reset with session := n, inbox := l, responses := rs }) rfl
  have hentry {tab : TableId} {a d : Index} (h : c.entry tab a = some d) : t.readTable tab a = d :=
    hloaded _ (keeps_entry h) (.inr (sets_entry h))
  obtain ⟨hfault, hcause⟩ := hloaded _ keeps_noError (.inl ⟨rfl, rfl⟩)
  refine ⟨t, ht, hphase, hfault, hcause, fun k a => ?_, fun a => ?_, fun k x => ⟨?_, fun hx => ?_⟩,
    PerRotor.ext_get fun k => ?_, PerRotor.ext_get fun k => ?_, fun hdisj => ⟨fun p hp => ?_, fun x hx => ?_⟩⟩
  · have hd := List.getElem?_eq_getElem (l := c.wiring.get k) (i := a.val) (by simp [hw k])
    rw [hd, hentry (tab := .wiring k) hd]
  · have hd := List.getElem?_eq_getElem (l := c.reflector) (i := a.val) (by simp [hrefl])
    rw [hd, hentry (tab := .reflector) hd]
  · exact hloaded _ (keeps_notchOnly x) (.inl fun h => by simp [State.inNotch, reset_notch_get] at h)
  · exact hloaded _ (keeps_inNotch x) (.inr (sets_notch hx))
  · refine hloaded _ keeps_ring ?_
    by_cases hdefault : c.ring.get k = 0
    · exact .inl ((reset_ring_get k).trans hdefault.symm)
    · exact .inr (sets_ring hdefault)
  · refine hloaded _ keeps_start ?_
    by_cases hdefault : c.start.get k = 0
    · exact .inl ((reset_pos_get k).trans hdefault.symm)
    · exact .inr (sets_start hdefault)
  · obtain ⟨hto, hfrom⟩ := partner_of_mem hdisj hp
    exact hloaded _ ((keeps_partner hto).and (keeps_partner hfrom)) (.inr (sets_pair hp))
  · have hself : c.Partner x x := fun p hp =>
      ⟨fun h => absurd h (hx p hp).1, fun h => absurd h (hx p hp).2⟩
    exact hloaded _ (keeps_partner hself) (.inl rfl)

end Sys2Proof.Machine
end

section
/-! The pseudo-instruction lines: a line is the mnemonic and a text, which its reader turns into commands; and what the
readers make of letters (30_encoding R87; blanks and quotes by log 15). -/

namespace Sys2Proof.Machine

/-! ## Scanning a line of a mnemonic and a text -/

/-- None of the characters that end a word. -/
def plainWord (m : List Char) : Prop := ∀ c ∈ m, c ∉ [';', ' ', '\t', ',', '\'', '"']

theorem scan_plainWord {m : List Char} (hm : plainWord m) (rest w : List Char) :
    scan (m ++ rest) (.plain w) = scan rest (.plain (m.reverse ++ w)) := by
  induction m generalizing w with
  | nil => rfl
  | cons c m ih =>
    obtain ⟨hc, hm⟩ := List.forall_mem_cons.1 hm
    simp only [List.mem_cons, List.not_mem_nil, or_false, not_or] at hc
    simp [scan, hc, ih hm]

section Lines

variable {m s : List Char} (hm : plainWord m) (hne : m ≠ []) (h : '"' ∉ s)

include hm hne h

/-- A mnemonic with a quoted text. -/
theorem assembleLine_text_operand :
    assembleLine (m ++ ([' ', '"'] ++ s ++ ['"'])) = assembleOperands m [.text s] := by
  have hscan : scan (m ++ ([' ', '"'] ++ s ++ ['"'])) (.plain []) = some [.word m, .text s] := by
    simp [scan_plainWord hm, scan, scan_inText s [] h, endWord, hne]
  rw [assembleLine, hscan]

/-- A mnemonic with a word of one character, a comma and a quoted text. -/
theorem assembleLine_word_text_operands {e : Char} (he : plainWord [e]) :
    assembleLine (m ++ ([' ', e, ',', ' ', '"'] ++ s ++ ['"'])) =
      assembleOperands m [.word [e], .comma, .text s] := by
  have hplain := he e (List.mem_singleton_self e)
  simp only [List.mem_cons, List.not_mem_nil, or_false, not_or] at hplain
  have hscan : scan (m ++ ([' ', e, ',', ' ', '"'] ++ s ++ ['"'])) (.plain []) =
      some [.word m, .word [e], .comma, .text s] := by
    simp [scan_plainWord hm, scan, hplain, scan_inText s [] h, endWord, hne]
  rw [assembleLine, hscan]

end Lines

/-! ## The seven lines -/

section Lines

variable {s : List Char} (h : '"' ∉ s)

include h

theorem assembleLine_text :
    assembleLine (['T', 'E', 'X', 'T', ' ', '"'] ++ s ++ ['"']) = (s.mapM characterOf).map pseudoText :=
  assembleLine_text_operand (m := ['T', 'E', 'X', 'T']) (by simp [plainWord]) (by simp) h

theorem assembleLine_plugs :
    assembleLine (['P', 'L', 'U', 'G', 'S', ' ', '"'] ++ s ++ ['"']) = (letterPairs s).map pseudoPlugs :=
  assembleLine_text_operand (m := ['P', 'L', 'U', 'G', 'S']) (by simp [plainWord]) (by simp) h

theorem assembleLine_rings :
    assembleLine (['R', 'I', 'N', 'G', 'S', ' ', '"'] ++ s ++ ['"']) = (threeLetters s).map pseudoRings :=
  assembleLine_text_operand (m := ['R', 'I', 'N', 'G', 'S']) (by simp [plainWord]) (by simp) h

theorem assembleLine_start :
    assembleLine (['S', 'T', 'A', 'R', 'T', ' ', '"'] ++ s ++ ['"']) = (threeLetters s).map pseudoStart :=
  assembleLine_text_operand (m := ['S', 'T', 'A', 'R', 'T']) (by simp [plainWord]) (by simp) h

theorem assembleLine_reflector :
    assembleLine (['R', 'E', 'F', 'L', 'E', 'C', 'T', 'O', 'R', ' ', '"'] ++ s ++ ['"']) =
      (tableLetters s).map pseudoReflector :=
  assembleLine_text_operand (m := ['R', 'E', 'F', 'L', 'E', 'C', 'T', 'O', 'R']) (by simp [plainWord]) (by simp) h

variable {e : Char × Rotor} (he : e ∈ [('L', Rotor.left), ('M', .middle), ('R', .right)])

include he

omit h in
/-- The name of a rotor is one word, its operand that rotor. -/
theorem rotorName_spec : plainWord [e.1] ∧ rotorOperand (.word [e.1]) = some e.2 := by
  simp only [List.mem_cons, List.not_mem_nil, or_false] at he
  rcases he with rfl | rfl | rfl
  · exact ⟨by simp [plainWord], rfl⟩
  · exact ⟨by simp [plainWord], rfl⟩
  · exact ⟨by simp [plainWord], rfl⟩

theorem assembleLine_rotor :
    assembleLine (['R', 'O', 'T', 'O', 'R', ' ', e.1, ',', ' ', '"'] ++ s ++ ['"']) =
      (tableLetters s).map (pseudoRotor e.2) := by
  obtain ⟨hplain, hrotor⟩ := rotorName_spec he
  have hline := assembleLine_word_text_operands (m := ['R', 'O', 'T', 'O', 'R']) (by simp [plainWord]) (by simp) h
    hplain
  exact hline.trans (by simp [assembleOperands, hrotor])

theorem assembleLine_notches :
    assembleLine (['N', 'O', 'T', 'C', 'H', 'E', 'S', ' ', e.1, ',', ' ', '"'] ++ s ++ ['"']) =
      (s.mapM letterOf).map (pseudoNotches e.2) := by
  obtain ⟨hplain, hrotor⟩ := rotorName_spec he
  have hline := assembleLine_word_text_operands (m := ['N', 'O', 'T', 'C', 'H', 'E', 'S']) (by simp [plainWord])
    (by simp) h hplain
  exact hline.trans (by simp [assembleOperands, hrotor])

end Lines

/-! ## What the readers make of letters -/

theorem quote_not_mem_map_letterChar (xs : List Index) : '"' ∉ xs.map letterChar := by
  simp only [List.mem_map, not_exists, not_and]
  exact fun x _ => (letterChar_ne x).1

theorem quote_not_mem_pairsText (ps : List (Index × Index)) : '"' ∉ pairsText ps := by
  induction ps using pairsText.induct with
  | case1 => simp [pairsText]
  | case2 p => simp [pairsText, Ne.symm (letterChar_ne _).1]
  | case3 p q ps ih => simp [pairsText, Ne.symm (letterChar_ne _).1, ih]

theorem mapM_letterOf_map_letterChar (xs : List Index) : (xs.map letterChar).mapM letterOf = some xs := by
  induction xs with
  | nil => rfl
  | cons x xs ih => simp [List.mapM_cons, ih]

theorem threeLetters_letterChar (x y z : Index) :
    threeLetters [letterChar x, letterChar y, letterChar z] = some ⟨x, y, z⟩ := by
  simp [threeLetters]

theorem tableLetters_map_letterChar {xs : List Index} (h : xs.length = 26) :
    tableLetters (xs.map letterChar) = some xs := by
  rw [tableLetters, if_pos (by rw [List.length_map, h]), mapM_letterOf_map_letterChar]

theorem mapM_characterOf {cs : List Char} (h : ∀ c ∈ cs, c.toNat < 256) :
    cs.mapM characterOf = some (cs.map fun c => BitVec.ofNat 8 c.toNat) := by
  induction cs with
  | nil => rfl
  | cons c cs ih =>
    obtain ⟨hc, hcs⟩ := List.forall_mem_cons.1 h
    simp [List.mapM_cons, characterOf, hc, ih hcs]

/-- Two letters at the head of the text are a pair, because neither is the space that separates pairs. -/
theorem letterPairs_letterChar_nil (x y : Index) : letterPairs [letterChar x, letterChar y] = some [(x, y)] := by
  simp [letterPairs, (letterChar_ne x).2]

theorem letterPairs_letterChar_space (x y : Index) (s : List Char) :
    letterPairs (letterChar x :: letterChar y :: ' ' :: s) = (letterPairs s).map ((x, y) :: ·) := by
  simp [letterPairs, (letterChar_ne x).2]

theorem letterPairs_pairsText (ps : List (Index × Index)) : letterPairs (pairsText ps) = some ps := by
  induction ps using pairsText.induct with
  | case1 => rfl
  | case2 p => exact letterPairs_letterChar_nil p.1 p.2
  | case3 p q ps ih => simp [pairsText, letterPairs_letterChar_space, ih]

/-- The addresses of a table, as indices or as numbers. -/
theorem map_zip_finRange {α : Type} (f : Nat × Index → α) (xs : List Index) :
    ((List.finRange 26).zip xs).map (fun e => f (e.1.val, e.2)) = ((List.range 26).zip xs).map f := by
  have hrange : List.range 26 = (List.finRange 26).map Fin.val := by simp
  rw [hrange, List.zip_map_left, List.map_map]
  rfl

theorem pseudoReflector_eq (xs : List Index) : pseudoReflector xs =
    ((List.range 26).zip xs).map fun e => .wrf (BitVec.ofNat 5 e.1) (BitVec.ofNat 5 e.2.val) :=
  map_zip_finRange (fun e => Instr.wrf (BitVec.ofNat 5 e.1) (BitVec.ofNat 5 e.2.val)) xs

theorem pseudoRotor_eq (k : Rotor) (xs : List Index) : pseudoRotor k xs =
    ((List.range 26).zip xs).map fun e => .wrw (rotorSelect k) (BitVec.ofNat 5 e.1) (BitVec.ofNat 5 e.2.val) :=
  map_zip_finRange (fun e => Instr.wrw (rotorSelect k) (BitVec.ofNat 5 e.1) (BitVec.ofNat 5 e.2.val)) xs

/-- The names of the rotors and their selects. -/
theorem exists_rotor_of_mem {e : Char × BitVec 2} (h : e ∈ [('L', 0#2), ('M', 1#2), ('R', 2#2)]) :
    ∃ k, (e.1, k) ∈ [('L', Rotor.left), ('M', .middle), ('R', .right)] ∧ e.2 = rotorSelect k := by
  simp only [List.mem_cons, List.not_mem_nil, or_false] at h
  rcases h with rfl | rfl | rfl
  · exact ⟨.left, by simp, rfl⟩
  · exact ⟨.middle, by simp, rfl⟩
  · exact ⟨.right, by simp, rfl⟩

/-- Settles O58: a line is its reader's commands, and each reader gives back the letters the text was written from. -/
theorem pseudoInstructionLines : Obligations.PseudoInstructionLines := by
  refine ⟨fun cs h hcs => ?_, fun ps => ?_, fun x y z => ⟨?_, ?_⟩, fun xs hxs => ?_,
    fun e he xs => ⟨fun hxs => ?_, ?_⟩, fun s h => ⟨assembleLine_text h, assembleLine_plugs h, assembleLine_rings h,
      assembleLine_start h, assembleLine_reflector h,
      fun e he => ⟨assembleLine_rotor h he, assembleLine_notches h he⟩⟩⟩
  · rw [assembleLine_text h, mapM_characterOf hcs]
    simp [pseudoText]
  · rw [assembleLine_plugs (quote_not_mem_pairsText ps), letterPairs_pairsText]
    rfl
  · have hline := assembleLine_rings (quote_not_mem_map_letterChar [x, y, z])
    exact hline.trans (by rw [List.map_cons, List.map_cons, List.map_cons, List.map_nil, threeLetters_letterChar]; rfl)
  · have hline := assembleLine_start (quote_not_mem_map_letterChar [x, y, z])
    exact hline.trans (by rw [List.map_cons, List.map_cons, List.map_cons, List.map_nil, threeLetters_letterChar]; rfl)
  · rw [assembleLine_reflector (quote_not_mem_map_letterChar xs), tableLetters_map_letterChar hxs, Option.map_some,
      pseudoReflector_eq]
  · obtain ⟨k, hk, hr⟩ := exists_rotor_of_mem he
    rw [assembleLine_rotor (quote_not_mem_map_letterChar xs) hk, tableLetters_map_letterChar hxs, Option.map_some,
      pseudoRotor_eq, hr]
  · obtain ⟨k, hk, hr⟩ := exists_rotor_of_mem he
    rw [assembleLine_notches (quote_not_mem_map_letterChar xs) hk, mapM_letterOf_map_letterChar, Option.map_some, hr]
    rfl

end Sys2Proof.Machine
end
